-- ==== Sys2Proof/Config.lean ====
section
/-! DEFINITION. The implementation parameters of 00_scope.md R6, each a named constant, and the
parameters the spec leaves to the configuration: WIRING (D1) and the exit status numbers (D17). The word types
(Word.lean) and every narrowing take their widths from here; for proofs each width unfolds to its numeral by simp. -/
namespace Sys2Proof

namespace Config

/-- `WORD`: bits of a register, a cell, an operand byte and an ALU value. -/
@[simp] abbrev wordBits : Nat := 8
/-- `MEM_SIZE`: number of memory cells, addresses 0..255. -/
abbrev memSize : Nat := 256
/-- `NREG`: number of registers. -/
@[simp] abbrev nReg : Nat := 8
/-- `SP_INDEX`: the register that is the stack pointer. -/
abbrev spIndex : Fin nReg := 7
/-- `SP_RESET`: reset value of register 7. -/
abbrev spReset : BitVec wordBits := 244#8
/-- `STACK_TOP`: the initial top of the stack; a pop at or above it faults (43_stack.md R73). -/
abbrev stackTop : Nat := 244
/-- `PC_BITS`: the width of the program counter (D4). -/
@[simp] abbrev pcBits : Nat := 9
/-- `PC_RESET`: the reset program counter. -/
abbrev pcReset : BitVec pcBits := 0#9
/-- `FL_RESET`: the reset flag register (10_state.md R19). UNVERIFIED: the spec's decision D2. -/
abbrev flReset : BitVec wordBits := 0#8
/-- `MEM_FILL`: every cell no image covers (10_state.md R26). UNVERIFIED: the spec's decision D3. -/
abbrev memFill : BitVec wordBits := 0#8
/-- `MAX_IMAGE`: the longest program image in bytes (20_memory.md R40). -/
abbrev maxImage : Nat := 256

end Config

/-- The values of the configuration parameter `WIRING` (30_encoding.md R51, D1). -/
inductive Wiring where
  | complete
  | reference
deriving DecidableEq, Repr

/-- `WIRING` of the engine `Machine.step` runs: `complete`, the spec's choice.
UNVERIFIED: the spec's decision D1. `Machine.stepWith` takes either value. -/
abbrev Config.wiring : Wiring := .complete

/-- The exit status numbers, OPEN in the spec (20_memory.md R43, D17): an argument of the status interface. -/
structure ExitCodes where
  ok : Nat
  loadFailure : Nat
  runtimeFault : Nat
deriving DecidableEq, Repr

/-- R43, D17: the three numbers are pairwise distinct. -/
abbrev ExitCodes.distinct (c : ExitCodes) : Prop :=
  c.ok ≠ c.loadFailure ∧ c.ok ≠ c.runtimeFault ∧ c.loadFailure ≠ c.runtimeFault

end Sys2Proof
end

