-- ==== Sys2Proof/Word.lean ====
section
/-! DEFINITION. The words of the CORE: the byte of memory cells, registers, operands and ALU values
(00_scope.md R6, WORD), the program counter (R6, PC_BITS; 10_state.md R15) and the register index (R6, NREG;
10_state.md R9), each of the width its parameter of Config names. -/
namespace Sys2Proof

/-- A byte: a memory cell, a register, an operand byte (10_state.md R7, R9; 20_memory.md R27). -/
abbrev Byte := BitVec Config.wordBits

/-- The program counter's word (10_state.md R15: `PC_BITS` = 9 bits, 0..511). -/
abbrev PcWord := BitVec Config.pcBits

/-- A register index 0..7 (10_state.md R9). -/
abbrev Reg := Fin Config.nReg

/-- The operand byte that names register `r` (30_encoding.md R48). -/
def Reg.byte (r : Reg) : Byte := BitVec.ofNat Config.wordBits r.val

end Sys2Proof
end

