-- ==== Sys2Proof/Machine/State.lean ====
section
/-! DEFINITION. The state of one engine instance as 10_state.md gives it (its head and R24: there is no other
state), the reasons `step` has no next state, and the state after reset (10_state.md section 9). -/
namespace Sys2Proof.Machine

/-- The run state (10_state.md R20). -/
inductive RunStatus where
  | running
  /-- Entered by HLT: the normal halt. -/
  | halted
  /-- Entered by a fault: the abnormal halt. -/
  | faulted
deriving DecidableEq, Repr

/-- The fault kinds the spec names (60_exceptions.md R94). -/
inductive FaultKind where
  | unknownOpcode
  | divideByZero
  | stackOverflow
  | stackUnderflow
  | memoryRange
  | registerIndex
  /-- Unreachable here (46_alu.md R83, 60_exceptions.md R101). -/
  | unsupportedAluOp
deriving DecidableEq, Repr

/-- A fault record `(kind, info)` (10_state.md R21): `info` is the byte or the address the kind names (R94). -/
structure FaultRecord where
  kind : FaultKind
  info : Nat
deriving DecidableEq, Repr

/-- The cells that differ from `Config.memFill`, as (address, byte) pairs in one canonical form
(`Memory.wf`, in Ops): addresses rising and below 256, no entry equal to the fill. -/
abbrev Memory := List Host.Cell

/-- The whole state of one engine (10_state.md R7-R22, R24). -/
structure State where
  /-- memory_array_256x8 (R7). -/
  mem : Memory
  /-- register_file_8x8 (R9); `x[7]` is SP (R10, R11). -/
  x : Vector Byte Config.nReg
  /-- program_counter (R14, R15). -/
  pc : PcWord
  /-- flag_register (R16): bit 0 is E, bits 7:1 are reserved. -/
  fl : Byte
  /-- The run state (R20). -/
  status : RunStatus
  /-- The fault record (R21). -/
  fault : Option FaultRecord
  /-- The output stream, oldest byte first (R22). -/
  out : List Byte
deriving DecidableEq, Repr

/-- Why `step` has no next state. The faults of the spec's own list (60_exceptions.md R94) are none
of these: they are next states with `status = faulted` and the fault record set (R102). -/
inductive Fault where
  /-- Raised by `step` alone, when `status` is `halted`: no step is enabled (40_execution_engine.md R66). Safe. -/
  | noStepHalted
  /-- Raised by `step` alone, when `status` is `faulted`: no step is enabled (40_execution_engine.md R66). Safe. -/
  | noStepFaulted
deriving DecidableEq, Repr

/-- Why an instruction has no meaning. -/
inductive Refusal where
  /-- Raised by an arm of `exec` whose instruction has no meaning yet; no arm is one. Safe. -/
  | notModelled (mnemonic : String)
deriving DecidableEq, Repr

/-- The state right after engine construction, before any load (10_state.md section 9; 70_reset_and_hazards.md R113). -/
def State.reset : State where
  mem := []
  x := (Vector.replicate Config.nReg 0).set Config.spIndex Config.spReset
  pc := Config.pcReset
  fl := Config.flReset
  status := .running
  fault := none
  out := []

end Sys2Proof.Machine
end

