-- ==== Sys2Proof/Machine/Ops.lean ====
section
/-! DEFINITION. The named operations over memory, registers, pc, output and status (00_scope.md section 5, the
pseudocode primitives), the entry of a fault (60_exceptions.md R102), and the push and pop mechanics (43_stack.md R72, R73). -/
namespace Sys2Proof.Machine

/-- What a step answers. -/
abbrev Result := Host.Outcome State Fault Refusal

/-! Memory -/

/-- The byte in cell `a`: the listed one, else the fill (10_state.md R7, R26). -/
def Memory.read (m : Memory) (a : Nat) : Byte :=
  match m with
  | [] => Config.memFill
  | (k, v) :: rest => if k = a then v else Memory.read rest a

/-- Put a cell before the first one with a greater address. -/
def Memory.insert (m : Memory) (a : Nat) (v : Byte) : Memory :=
  match m with
  | [] => [(a, v)]
  | (k, w) :: rest => if a < k then (a, v) :: (k, w) :: rest else (k, w) :: Memory.insert rest a v

/-- Store `v` in cell `a`, keeping the canonical form: a cell that holds the fill is not listed. -/
def Memory.write (m : Memory) (a : Nat) (v : Byte) : Memory :=
  let others := m.filter (fun c => c.1 != a)
  if v = Config.memFill then others else Memory.insert others a v

/-- The canonical form: addresses strictly rising and inside the memory, no entry equal to the fill. -/
def Memory.wf (m : Memory) : Bool :=
  match m with
  | [] => true
  | (k, v) :: rest =>
    rest.all (fun c => decide (k < c.1)) && decide (k < Config.memSize) && (v != Config.memFill) && Memory.wf rest

/-- Store bytes at increasing addresses from `a` (20_memory.md R40). -/
def Memory.writeBytes (m : Memory) (a : Nat) (bytes : List Byte) : Memory :=
  match bytes with
  | [] => m
  | b :: rest => Memory.writeBytes (Memory.write m a b) (a + 1) rest

/-! Faults -/

/-- `raise <Kind>(info)` (00_scope.md section 5): a value in place of an effect, so that nothing is changed. -/
def raise {α : Type} (kind : FaultKind) (info : Nat) : Except FaultRecord α := .error ⟨kind, info⟩

/-- Fault entry (60_exceptions.md R102, 40_execution_engine.md R63): status and record, nothing else; `pc` keeps
the faulting instruction's address. Nothing returns from it (R104). -/
def takeFault (s : State) (f : FaultRecord) : State :=
  { s with status := .faulted, fault := some f }

/-- End a step: its effect, or the entry of its fault in the state before the step (R57, R63: precise). -/
def settle (s : State) (effect : Except FaultRecord State) : Result :=
  match effect with
  | .ok t => .next t
  | .error f => .next (takeFault s f)

/-! Checked accesses -/

/-- `MemRead(a, 1)` (00_scope.md section 5; 10_state.md R8). -/
def memRead (s : State) (a : Nat) : Except FaultRecord Byte :=
  if a < Config.memSize then .ok (s.mem.read a) else raise .memoryRange a

/-- `MemWrite(a, 1, v)` (00_scope.md section 5; 10_state.md R8). -/
def memWrite (s : State) (a : Nat) (v : Byte) : Except FaultRecord State :=
  if a < Config.memSize then .ok { s with mem := s.mem.write a v } else raise .memoryRange a

/-! Registers, pc, output -/

/-- Read `x[r]` (10_state.md R9). -/
def State.reg (s : State) (r : Reg) : Byte := s.x[r]

/-- Write `x[r]` (10_state.md R9). -/
def State.setReg (s : State) (r : Reg) (v : Byte) : State := { s with x := s.x.set r v }

/-- Read SP, which is `x[7]` (10_state.md R11). -/
def State.sp (s : State) : Byte := s.reg Config.spIndex

/-- Write SP, which is `x[7]` (10_state.md R11). -/
def State.setSp (s : State) (v : Byte) : State := s.setReg Config.spIndex v

/-- The default advance past an instruction of `length` bytes (40_execution_engine.md R61). -/
def State.advance (s : State) (length : Nat) : State := { s with pc := s.pc + BitVec.ofNat Config.pcBits length }

/-- A control transfer: `pc` takes a byte (10_state.md R15). -/
def State.jumpTo (s : State) (target : Byte) : State := { s with pc := target.setWidth Config.pcBits }

/-- `emit(v)`: append to the output stream (10_state.md R22). -/
def State.emit (s : State) (v : Byte) : State := { s with out := s.out ++ [v] }

/-! Stack mechanics -/

/-- The check of the push mechanics (43_stack.md R72): SP would go below 0. -/
def checkPush (s : State) : Except FaultRecord Unit :=
  if s.sp.toNat = 0 then raise .stackOverflow s.sp.toNat else .ok ()

/-- Push mechanics (43_stack.md R72): check, decrement SP, write one byte at the new SP.
`value` is evaluated after the decrement (D5). -/
def push (s : State) (value : State → Byte) : Except FaultRecord State := do
  checkPush s
  let t := s.setSp (s.sp - 1#8)
  memWrite t t.sp.toNat (value t)

/-- The check of the pop mechanics (43_stack.md R73): the increment would pass the initial top. -/
def checkPop (s : State) : Except FaultRecord Unit :=
  if Config.stackTop ≤ s.sp.toNat then raise .stackUnderflow s.sp.toNat else .ok ()

/-- Pop mechanics (43_stack.md R73): check, read one byte at SP into the destination, then increment SP,
reading SP after the destination is written (D5). -/
def pop (s : State) (store : State → Byte → State) : Except FaultRecord State := do
  checkPop s
  let v ← memRead s s.sp.toNat
  let t := store s v
  .ok (t.setSp (t.sp + 1#8))

end Sys2Proof.Machine
end

