-- ==== Sys2Proof/Machine/Flags.lean ====
section
/-! DEFINITION. The flag register (10_state.md R16-R19): the equal flag E is bit 0; bits 7:1 are kept as they are. -/
namespace Sys2Proof.Machine

/-- `FL[0]`, the equal flag (10_state.md R16, R18). -/
def State.equalFlag (s : State) : Bool := s.fl.getLsbD 0

/-- A flag register with bit 0 replaced and bits 7:1 untouched (10_state.md R17). -/
def withEqualBit (fl : Byte) (e : Bool) : Byte := (fl &&& 0xFE#8) ||| (if e then 0x01#8 else 0x00#8)

/-- Write E (46_alu.md R92). -/
def State.setEqualFlag (s : State) (e : Bool) : State := { s with fl := withEqualBit s.fl e }

end Sys2Proof.Machine
end

