-- ==== Sys2Proof/Machine/Operands.lean ====
section
/-! DEFINITION. The operand forms (30_encoding.md R48): the register operand, checked before any effect
(10_state.md R12, 40_execution_engine.md R62 point 4). The only other form, LDI's immediate, is the operand byte itself. -/
namespace Sys2Proof.Machine

/-- A register operand byte: 0..7 selects `x[byte]`, 8..255 raises `RegisterIndexFault(byte)`; the index is
not masked (R48, D9). -/
def regOperand (b : Byte) : Except FaultRecord Reg :=
  if h : b.toNat < Config.nReg then .ok ⟨b.toNat, h⟩ else raise .registerIndex b.toNat

/-- The two register operands of format F2RR, the first checked first (40_execution_engine.md R62). -/
def regOperands (a b : Byte) : Except FaultRecord (Reg × Reg) := do
  let ra ← regOperand a
  let rb ← regOperand b
  .ok (ra, rb)

end Sys2Proof.Machine
end

