-- ==== Sys2Proof/Machine/Alu.lean ====
section
/-! DEFINITION. The ALU and the arithmetic-class instructions (46_alu.md). Operands are taken as numbers, the exact
result is computed, and the narrowing `mod 256` is explicit (R81: unsigned, wrapping, no carry, overflow or sign recorded). -/
namespace Sys2Proof.Machine

/-! The ALU's results (R85-R91) -/

/-- `(x + y) mod 256` (R85). -/
def aluAdd (x y : Byte) : Byte := BitVec.ofNat Config.wordBits (x.toNat + y.toNat)

/-- `(x - y) mod 256` (R86). -/
def aluSub (x y : Byte) : Byte := BitVec.ofInt Config.wordBits ((x.toNat : Int) - (y.toNat : Int))

/-- `(x * y) mod 256`, the low 8 bits of the product (R87). -/
def aluMul (x y : Byte) : Byte := BitVec.ofNat Config.wordBits (x.toNat * y.toNat)

/-- `x div y` for a nonzero `y` (R88). -/
def aluDiv (x y : Byte) : Byte := BitVec.ofNat Config.wordBits (x.toNat / y.toNat)

/-- `x mod y` for a nonzero `y` (R89). -/
def aluMod (x y : Byte) : Byte := BitVec.ofNat Config.wordBits (x.toNat % y.toNat)

/-- `(x + 1) mod 256` (R90). -/
def aluInc (x : Byte) : Byte := BitVec.ofNat Config.wordBits (x.toNat + 1)

/-- `(x - 1) mod 256` (R91). -/
def aluDec (x : Byte) : Byte := BitVec.ofInt Config.wordBits ((x.toNat : Int) - 1)

/-! The common forms (R84) -/

/-- A binary arithmetic instruction: both registers are read before the first is written (R81). -/
def binaryAlu (alu : Byte → Byte → Byte) (a b : Byte) (s : State) : Result := settle s do
  let (ra, rb) ← regOperands a b
  .ok ((s.setReg ra (alu (s.reg ra) (s.reg rb))).advance 3)

/-- A binary arithmetic instruction that faults on a zero divisor, with the divisor's index, before
its destination is written (R88, R89; 60_exceptions.md R96). -/
def dividingAlu (alu : Byte → Byte → Byte) (a b : Byte) (s : State) : Result := settle s do
  let (ra, rb) ← regOperands a b
  if (s.reg rb).toNat = 0 then raise .divideByZero rb.val
  else .ok ((s.setReg ra (alu (s.reg ra) (s.reg rb))).advance 3)

/-- A unary arithmetic instruction. -/
def unaryAlu (alu : Byte → Byte) (a : Byte) (s : State) : Result := settle s do
  let ra ← regOperand a
  .ok ((s.setReg ra (alu (s.reg ra))).advance 2)

/-! The instructions -/

/-- ADD (R85). -/
def execAdd (a b : Byte) (s : State) : Result := binaryAlu aluAdd a b s

/-- SUB (R86). -/
def execSub (a b : Byte) (s : State) : Result := binaryAlu aluSub a b s

/-- MUL (R87). -/
def execMul (a b : Byte) (s : State) : Result := binaryAlu aluMul a b s

/-- DIV (R88). -/
def execDiv (a b : Byte) (s : State) : Result := dividingAlu aluDiv a b s

/-- MOD (R89). -/
def execMod (a b : Byte) (s : State) : Result := dividingAlu aluMod a b s

/-- INC (R90): no stack check, also for R7. -/
def execInc (a : Byte) (s : State) : Result := unaryAlu aluInc a s

/-- DEC (R91): no stack check, also for R7. -/
def execDec (a : Byte) (s : State) : Result := unaryAlu aluDec a s

/-- CMP (R92): E alone is written; equality only. -/
def execCmp (a b : Byte) (s : State) : Result := settle s do
  let (ra, rb) ← regOperands a b
  .ok ((s.setEqualFlag (s.reg ra == s.reg rb)).advance 3)

end Sys2Proof.Machine
end

