-- ==== Sys2Proof/Machine/DataMovement.lean ====
section
/-! DEFINITION. Data movement (41_data_movement.md): LDI. -/
namespace Sys2Proof.Machine

/-- LDI (R69): load an immediate into a register. -/
def execLdi (r imm : Byte) (s : State) : Result := settle s do
  let d ← regOperand r
  .ok ((s.setReg d imm).advance 3)

end Sys2Proof.Machine
end

