-- ==== Sys2Proof/Machine/Halt.lean ====
section
/-! DEFINITION. Halt (47_halt.md): HLT. -/
namespace Sys2Proof.Machine

/-- HLT (R93): the status alone changes; `pc` stays at the HLT byte (D11). -/
def execHlt (s : State) : Result := settle s (.ok { s with status := .halted })

end Sys2Proof.Machine
end

