-- ==== Sys2Proof/Machine/Jumps.lean ====
section
/-! DEFINITION. Jumps (45_jumps.md): JMP, JEQ, JNE, each indirect through a register. -/
namespace Sys2Proof.Machine

/-- A two-byte jump taken when `taken` holds; the register operand is checked either way (40_execution_engine.md R62). -/
def jumpIf (taken : Bool) (r : Byte) (s : State) : Result := settle s do
  let q ← regOperand r
  .ok (if taken then s.jumpTo (s.reg q) else s.advance 2)

/-- JMP (R78). -/
def execJmp (r : Byte) (s : State) : Result := jumpIf true r s

/-- JEQ (R79): taken when E = 1. -/
def execJeq (r : Byte) (s : State) : Result := jumpIf s.equalFlag r s

/-- JNE (R80): taken when E = 0. -/
def execJne (r : Byte) (s : State) : Result := jumpIf (!s.equalFlag) r s

end Sys2Proof.Machine
end

