-- ==== Sys2Proof/Machine/Output.lean ====
section
/-! DEFINITION. Output (42_output.md): PRN. The rendering of the stream (R71) is in Interfaces.lean. -/
namespace Sys2Proof.Machine

/-- PRN (R70): emit a register. -/
def execPrn (r : Byte) (s : State) : Result := settle s do
  let q ← regOperand r
  .ok ((s.emit (s.reg q)).advance 2)

end Sys2Proof.Machine
end

