-- ==== Sys2Proof/Machine/Stack.lean ====
section
/-! DEFINITION. The stack instructions (43_stack.md): PSH, POP. The mechanics (R72, R73) are in Ops.lean. -/
namespace Sys2Proof.Machine

/-- PSH (R74): push a register, read after SP is decremented (D5). -/
def execPsh (r : Byte) (s : State) : Result := settle s do
  let q ← regOperand r
  let t ← push s (fun u => u.reg q)
  .ok (t.advance 2)

/-- POP (R75): pop into a register; a destination R7 is then incremented too (D5). -/
def execPop (r : Byte) (s : State) : Result := settle s do
  let d ← regOperand r
  let t ← pop s (fun u v => u.setReg d v)
  .ok (t.advance 2)

end Sys2Proof.Machine
end

