-- ==== Sys2Proof/Machine/Subroutine.lean ====
section
/-! DEFINITION. Subroutine linkage (44_subroutine.md): CALL, RET. -/
namespace Sys2Proof.Machine

/-- The byte CALL pushes, `pc + 2`; an address that names no cell fits no byte and faults (R76, D10). -/
def returnAddress (s : State) : Except FaultRecord Byte :=
  if s.pc.toNat + 2 < Config.memSize then .ok (BitVec.ofNat Config.wordBits (s.pc.toNat + 2))
  else raise .memoryRange (s.pc.toNat + 2)

/-- CALL (R76): the push check, the return address check, the push, then the jump to the register read
after the push (D5). -/
def execCall (r : Byte) (s : State) : Result := settle s do
  let q ← regOperand r
  checkPush s
  let back ← returnAddress s
  let t ← push s (fun _ => back)
  .ok (t.jumpTo (t.reg q))

/-- RET (R77): pop into `pc`. -/
def execRet (s : State) : Result := settle s (pop s (fun u v => u.jumpTo v))

end Sys2Proof.Machine
end

