-- ==== Sys2Proof/Syntax.lean ====
section
/-! DEFINITION. The instruction set as syntax: the closed enumeration of operations (40_execution_engine.md R64),
the formats (30_encoding.md R45) and the instructions, one constructor per row of spec/opcode_table.json.
A register operand is kept as the whole operand byte the spec makes it (R48), so that an
instruction whose operand names no register is a term too: it executes to RegisterIndexFault. -/
namespace Sys2Proof

/-- The symbolic operation identifiers of the opcode table (30_encoding.md R47). -/
inductive Op where
  | ldi | prn | hlt | psh | pop | call | ret | jmp | jeq | jne
  | add | sub | mul | div | mod | inc | dec | cmp
deriving DecidableEq, Repr

/-- The four instruction formats (30_encoding.md R45). -/
inductive Format where
  | f0 | f1r | f2rr | f2ri
deriving DecidableEq, Repr

/-- One instruction with its operand bytes: `r`, `a`, `b` are register operands, `imm` is LDI's immediate. -/
inductive Instr where
  | ldi (r imm : Byte)
  | prn (r : Byte)
  | hlt
  | psh (r : Byte)
  | pop (r : Byte)
  | call (r : Byte)
  | ret
  | jmp (r : Byte)
  | jeq (r : Byte)
  | jne (r : Byte)
  | add (a b : Byte)
  | sub (a b : Byte)
  | mul (a b : Byte)
  | div (a b : Byte)
  | mod (a b : Byte)
  | inc (a : Byte)
  | dec (a : Byte)
  | cmp (a b : Byte)
deriving DecidableEq, Repr

end Sys2Proof
end

