-- ==== Sys2Proof/Decode.lean ====
section
/-! DEFINITION. Decoding and encoding (30_encoding.md): the opcode table as rows, the decoder over a list of bytes,
total and rejecting by name, and after it the encoder, written from the format table on its own. -/
namespace Sys2Proof

/-- The operand count of a format (R44, R45). -/
def Format.operandBytes : Format → Nat
  | .f0 => 0
  | .f1r => 1
  | .f2rr => 2
  | .f2ri => 2

/-- One row of the opcode table (R47). -/
structure OpcodeRow where
  opcode : Byte
  op : Op
  operandBytes : Nat
  format : Format
deriving DecidableEq, Repr

/-- The rows of R47 for data movement, output, halt, stack, subroutines and jumps, in the table's order and binary digits. -/
def engineRows : List OpcodeRow :=
  [ ⟨0b10000010#8, .ldi,  2, .f2ri⟩,
    ⟨0b01000111#8, .prn,  1, .f1r⟩,
    ⟨0b00000001#8, .hlt,  0, .f0⟩,
    ⟨0b01000101#8, .psh,  1, .f1r⟩,
    ⟨0b01000110#8, .pop,  1, .f1r⟩,
    ⟨0b01010000#8, .call, 1, .f1r⟩,
    ⟨0b00010001#8, .ret,  0, .f0⟩,
    ⟨0b01010100#8, .jmp,  1, .f1r⟩,
    ⟨0b01010101#8, .jeq,  1, .f1r⟩,
    ⟨0b01010110#8, .jne,  1, .f1r⟩ ]

/-- The rows of R47 for the eight ALU-class instructions. -/
def aluRows : List OpcodeRow :=
  [ ⟨0b10100000#8, .add, 2, .f2rr⟩,
    ⟨0b10100001#8, .sub, 2, .f2rr⟩,
    ⟨0b10100010#8, .mul, 2, .f2rr⟩,
    ⟨0b10100011#8, .div, 2, .f2rr⟩,
    ⟨0b10100100#8, .mod, 2, .f2rr⟩,
    ⟨0b01100101#8, .inc, 1, .f1r⟩,
    ⟨0b01100110#8, .dec, 1, .f1r⟩,
    ⟨0b10100111#8, .cmp, 2, .f2rr⟩ ]

/-- The opcode table (R47): closed, a constant, never mutated (00_scope.md R4, 10_state.md R23). -/
def opcodeTable : List OpcodeRow := engineRows ++ aluRows

/-- R51: the six operations the reference wiring leaves unwired. -/
def Op.unwiredInReference : Op → Bool
  | .sub | .div | .mod | .inc | .dec | .jne => true
  | .ldi | .prn | .hlt | .psh | .pop | .call | .ret | .jmp | .jeq | .add | .mul | .cmp => false

/-- Whether the configuration executes the operation (R51, D1). -/
def Op.wiredIn (w : Wiring) (op : Op) : Bool :=
  match w with
  | .complete => true
  | .reference => !op.unwiredInReference

/-- `TABLE(WIRING)` of 40_execution_engine.md R67. -/
def tableFor (w : Wiring) : List OpcodeRow := opcodeTable.filter (fun row => row.op.wiredIn w)

/-- Look an opcode byte up in the table: the whole byte is matched (R47; 40_execution_engine.md R59). -/
def lookupOpcode (w : Wiring) (opcode : Byte) : Option OpcodeRow :=
  (tableFor w).find? (fun row => row.opcode == opcode)

/-- The instruction of an operation and its operand bytes `op1`, `op2`; an operation of a smaller
arity has no second, or no first, operand byte and takes none (R45). -/
def Op.instr (op : Op) (op1 op2 : Byte) : Instr :=
  match op with
  | .ldi => .ldi op1 op2
  | .prn => .prn op1
  | .hlt => .hlt
  | .psh => .psh op1
  | .pop => .pop op1
  | .call => .call op1
  | .ret => .ret
  | .jmp => .jmp op1
  | .jeq => .jeq op1
  | .jne => .jne op1
  | .add => .add op1 op2
  | .sub => .sub op1 op2
  | .mul => .mul op1 op2
  | .div => .div op1 op2
  | .mod => .mod op1 op2
  | .inc => .inc op1
  | .dec => .dec op1
  | .cmp => .cmp op1 op2

/-- Why bytes decode to no instruction. -/
inductive DecodeError where
  /-- The opcode byte is not in the table (R50, R51). -/
  | unknownOpcode (opcode : Byte)
  /-- The bytes end before byte `k` of the instruction (byte 0 is the opcode). -/
  | missingByte (k : Nat)
deriving DecidableEq, Repr

/-- Decode one instruction from the front of `bytes` and give the bytes after it (R44, R49, R50).
The length is known from the opcode alone; operand bytes are never decoded as opcodes (R52). -/
def decode (w : Wiring) (bytes : List Byte) : Except DecodeError (Instr × List Byte) :=
  match bytes with
  | [] => .error (.missingByte 0)
  | opcode :: rest =>
    match lookupOpcode w opcode with
    | none => .error (.unknownOpcode opcode)
    | some row =>
      if rest.length < row.operandBytes then .error (.missingByte (rest.length + 1))
      else .ok (row.op.instr (rest.getD 0 0#8) (rest.getD 1 0#8), rest.drop row.operandBytes)

/-! The encoder, from the hexadecimal column and the formats of the same rule. -/

/-- The operation of an instruction. -/
def Instr.op : Instr → Op
  | .ldi _ _ => .ldi
  | .prn _ => .prn
  | .hlt => .hlt
  | .psh _ => .psh
  | .pop _ => .pop
  | .call _ => .call
  | .ret => .ret
  | .jmp _ => .jmp
  | .jeq _ => .jeq
  | .jne _ => .jne
  | .add _ _ => .add
  | .sub _ _ => .sub
  | .mul _ _ => .mul
  | .div _ _ => .div
  | .mod _ _ => .mod
  | .inc _ => .inc
  | .dec _ => .dec
  | .cmp _ _ => .cmp

/-- The opcode byte of an operation (R47, hexadecimal column). -/
def Op.opcode : Op → Byte
  | .ldi => 0x82#8
  | .prn => 0x47#8
  | .hlt => 0x01#8
  | .psh => 0x45#8
  | .pop => 0x46#8
  | .call => 0x50#8
  | .ret => 0x11#8
  | .jmp => 0x54#8
  | .jeq => 0x55#8
  | .jne => 0x56#8
  | .add => 0xA0#8
  | .sub => 0xA1#8
  | .mul => 0xA2#8
  | .div => 0xA3#8
  | .mod => 0xA4#8
  | .inc => 0x65#8
  | .dec => 0x66#8
  | .cmp => 0xA7#8

/-- The format of an operation (R45, R47). -/
def Op.format : Op → Format
  | .hlt | .ret => .f0
  | .prn | .psh | .pop | .call | .jmp | .jeq | .jne | .inc | .dec => .f1r
  | .add | .sub | .mul | .div | .mod | .cmp => .f2rr
  | .ldi => .f2ri

/-- The operand bytes of an instruction, operand 1 first (20_memory.md R27). -/
def Instr.operands : Instr → List Byte
  | .ldi r imm => [r, imm]
  | .prn r => [r]
  | .hlt => []
  | .psh r => [r]
  | .pop r => [r]
  | .call r => [r]
  | .ret => []
  | .jmp r => [r]
  | .jeq r => [r]
  | .jne r => [r]
  | .add a b => [a, b]
  | .sub a b => [a, b]
  | .mul a b => [a, b]
  | .div a b => [a, b]
  | .mod a b => [a, b]
  | .inc a => [a]
  | .dec a => [a]
  | .cmp a b => [a, b]

/-- The bytes of an instruction in address order: the opcode, then the operand bytes (R44, R45). -/
def encode (i : Instr) : List Byte := i.op.opcode :: i.operands

/-! The word interface of the host: bit 0 of the word is the least significant bit of the first byte. -/

/-- The three bytes an instruction word of `nbits` bits lays out in memory, the bits above `nbits` zero. -/
def tableBytes (nbits word : Nat) : List Byte :=
  let v := word % 2 ^ nbits
  [BitVec.ofNat Config.wordBits v, BitVec.ofNat Config.wordBits (v / 256), BitVec.ofNat Config.wordBits (v / 65536)]

/-- The instruction the decoder reads from a word numbered as spec/opcode_table.json numbers it. -/
def decodeTableWord (nbits w : Nat) : Option Instr :=
  match decode Config.wiring (tableBytes nbits w) with
  | .ok (i, _) => some i
  | .error _ => none

end Sys2Proof
end

