-- ==== Sys2Proof/Machine/Fetch.lean ====
section
/-! DEFINITION. Instruction fetch (40_execution_engine.md R58-R60, R62 points 1 to 3): the bytes in memory at and after
`pc`, given to the decoder; what the decoder finds missing or unknown is the fetch's fault. -/
namespace Sys2Proof.Machine

/-- The bytes of memory from `pc` on, at most the three an instruction can have, those past the last cell left out
(10_state.md R14; 30_encoding.md R44). Reading has no side effect (20_memory.md R31), so a byte the instruction
does not take is not observed. -/
def codeWindow (s : State) : List Byte :=
  ((List.range 3).filter (fun k => decide (s.pc.toNat + k < Config.memSize))).map
    (fun k => s.mem.read (s.pc.toNat + k))

/-- The fault a failed decode raises: the opcode's value, or the address of the first byte past the memory. -/
def fetchFault (s : State) : DecodeError → FaultRecord
  | .unknownOpcode opcode => ⟨.unknownOpcode, opcode.toNat⟩
  | .missingByte k => ⟨.memoryRange, s.pc.toNat + k⟩

/-- Fetch and decode the instruction at `pc`. -/
def fetchInstr (w : Wiring) (s : State) : Except FaultRecord Instr :=
  match decode w (codeWindow s) with
  | .ok (i, _) => .ok i
  | .error e => .error (fetchFault s e)

end Sys2Proof.Machine
end

