-- ==== Sys2Proof/Machine/Step.lean ====
section
/-! DEFINITION. One step, which is one instruction (40_execution_engine.md R57, R67), for either value of WIRING. -/
namespace Sys2Proof.Machine

/-- One step of an engine with the given WIRING. No step is enabled once the run is over (R66). -/
def stepWith (w : Wiring) (s : State) : Host.Outcome State Fault Refusal :=
  match s.status with
  | .halted => .fault .noStepHalted
  | .faulted => .fault .noStepFaulted
  | .running =>
    match fetchInstr w s with
    | .error f => .next (takeFault s f)
    | .ok i => exec i s

/-- One step of the engine in the spec's configuration (30_encoding.md R51, D1). -/
def step (s : State) : Host.Outcome State Fault Refusal := stepWith Config.wiring s

/-- The state with an instruction word's bytes stored at `pc`, where the next step fetches; nothing else
changes. It stands for the load of 20_memory.md R40. Bytes past cell 255 have no cell and are left out. -/
def State.withFetchWord (s : State) (nbits w : Nat) : State :=
  { s with
    mem := s.mem.writeBytes s.pc.toNat ((tableBytes nbits w).take (Config.memSize - s.pc.toNat)) }

end Sys2Proof.Machine
end

