-- ==== Sys2Proof/WellFormed.lean ====
section
/-! DEFINITION. When an instruction is well formed: every register operand byte names one of the
eight registers (10_state.md R12, 30_encoding.md R48). An immediate is never checked (41_data_movement.md R69). -/
namespace Sys2Proof

/-- R12, R48: the operand byte names a register. -/
def namesRegister (b : Byte) : Bool := decide (b.toNat < Config.nReg)

/-- The register operand bytes of an instruction in operand order (`REG_OPS`, 40_execution_engine.md R67). -/
def Instr.registerOperands : Instr → List Byte
  | .ldi r _ => [r]
  | .prn r => [r]
  | .hlt => []
  | .psh r => [r]
  | .pop r => [r]
  | .call r => [r]
  | .ret => []
  | .jmp r => [r]
  | .jeq r => [r]
  | .jne r => [r]
  | .add a b => [a, b]
  | .sub a b => [a, b]
  | .mul a b => [a, b]
  | .div a b => [a, b]
  | .mod a b => [a, b]
  | .inc a => [a]
  | .dec a => [a]
  | .cmp a b => [a, b]

/-- Every register operand names a register. -/
def Instr.wf (i : Instr) : Bool := i.registerOperands.all namesRegister

end Sys2Proof
end

