-- ==== Sys2Proof/Machine/Assembly.lean ====
section
/-! DEFINITION. The assembly text of 30_encoding.md R54 (D19): mnemonic, operands separated by spaces with an
optional comma between two operands, instructions separated by `;`. The machine never reads it: it works on bytes.
No pseudo-instruction exists (R55). What R54 leaves open is fixed in log entry 21. -/
namespace Sys2Proof.Machine

/-- The mnemonic of an operation (30_encoding.md R47). -/
def mnemonicOf : Op → String
  | .ldi => "LDI"
  | .prn => "PRN"
  | .hlt => "HLT"
  | .psh => "PSH"
  | .pop => "POP"
  | .call => "CALL"
  | .ret => "RET"
  | .jmp => "JMP"
  | .jeq => "JEQ"
  | .jne => "JNE"
  | .add => "ADD"
  | .sub => "SUB"
  | .mul => "MUL"
  | .div => "DIV"
  | .mod => "MOD"
  | .inc => "INC"
  | .dec => "DEC"
  | .cmp => "CMP"

/-- Cut a text at every separator. -/
def cutAt (sep : Char) (text : List Char) : List (List Char) :=
  match text with
  | [] => [[]]
  | c :: rest =>
    match cutAt sep rest with
    | [] => [[]]
    | piece :: pieces => if c = sep then [] :: piece :: pieces else (c :: piece) :: pieces

/-- The words of one instruction's text, a comma being a word of its own. -/
def wordsOf (text : List Char) : List (List Char) :=
  (cutAt ' ' (text.flatMap (fun c => if c = ',' then [' ', ',', ' '] else [c]))).filter (fun word => !word.isEmpty)

/-- The value of a digit in a radix. -/
def digitValue (radix : Nat) (c : Char) : Option Nat :=
  let n := c.toNat
  let v :=
    if 48 ≤ n ∧ n ≤ 57 then n - 48
    else if 65 ≤ n ∧ n ≤ 70 then n - 55
    else if 97 ≤ n ∧ n ≤ 102 then n - 87
    else radix
  if v < radix then some v else none

/-- The number a digit string denotes, read after `acc`. -/
def numberFrom (radix acc : Nat) (digits : List Char) : Option Nat :=
  match digits with
  | [] => some acc
  | c :: rest =>
    match digitValue radix c with
    | none => none
    | some v => numberFrom radix (acc * radix + v) rest

/-- A nonempty digit string that denotes a byte. -/
def byteOf (radix : Nat) (digits : List Char) : Option Byte :=
  if digits.isEmpty then none
  else (numberFrom radix 0 digits).bind (fun n => if n ≤ 255 then some (BitVec.ofNat Config.wordBits n) else none)

/-- An immediate: decimal, or hexadecimal after `0x`, or binary after `0b` (R54). -/
def immediateOf (word : List Char) : Option Byte :=
  match word with
  | '0' :: 'x' :: digits => byteOf 16 digits
  | '0' :: 'b' :: digits => byteOf 2 digits
  | digits => byteOf 10 digits

/-- A register name `R0`..`R7`. -/
def registerOf (word : List Char) : Option Byte :=
  match word with
  | ['R', d] => (digitValue Config.nReg d).map (fun n => BitVec.ofNat Config.wordBits n)
  | _ => none

/-- The operand words of a format, as bytes; a comma may stand between two operands (R54). -/
def operandsOf (f : Format) (words : List (List Char)) : Option (List Byte) :=
  let second := match f with
    | .f2ri => immediateOf
    | .f0 | .f1r | .f2rr => registerOf
  match f.operandBytes, words with
  | 0, [] => some []
  | 1, [r] => (registerOf r).map (fun b => [b])
  | 2, [a, b] => (registerOf a).bind (fun x => (second b).map (fun y => [x, y]))
  | 2, [a, [','], b] => (registerOf a).bind (fun x => (second b).map (fun y => [x, y]))
  | _, _ => none

/-- The bytes of one instruction's text. -/
def assembleOne (text : List Char) : Option (List Byte) :=
  match wordsOf text with
  | [] => none
  | word :: operands =>
    (opcodeTable.find? (fun row => (mnemonicOf row.op).toList == word)).bind
      (fun row => (operandsOf row.format operands).map (fun bytes => row.opcode :: bytes))

/-- The image of a program's text: its instructions' bytes in order. -/
def assemble (text : String) : Option (List Byte) :=
  ((cutAt ';' text.toList).mapM assembleOne).map List.flatten

end Sys2Proof.Machine
end

