-- ==== Sys2Proof/Machine/Interfaces.lean ====
section
/-! DEFINITION. The interfaces of the block (20_memory.md R40-R43): load, inspection, output, status. None of them
is used by a step; a load happens only before the first one, so it starts from the reset state. -/
namespace Sys2Proof.Machine

/-! Load (R40, R112, R114) -/

/-- A load-time error: the engine never starts. -/
inductive LoadError where
  /-- The image is longer than `Config.maxImage`: refused by the load interface (R40, D16). -/
  | imageTooLong
  /-- The loader has no image, "missing or unreadable program source" (60_exceptions.md R112). -/
  | noSource
deriving DecidableEq, Repr

/-- Load an image into a newly constructed engine: byte `k` into cell `k`, the other cells at the fill (R40; 10_state.md R26). -/
def load (image : List Byte) : Except LoadError State :=
  if image.length ≤ Config.maxImage then
    .ok { State.reset with mem := State.reset.mem.writeBytes 0 image }
  else .error .imageTooLong

/-- Boot (70_reset_and_hazards.md R114): construct, then load what the loader found; with nothing found no step ever runs (R112). -/
def boot (source : Option (List Byte)) : Except LoadError State :=
  match source with
  | none => .error .noSource
  | some image => load image

/-! Inspection (R41) -/

/-- What a snapshot shows: `pc`, the registers, and the three bytes at `pc`, absent past the last cell (D15). -/
structure Snapshot where
  pc : PcWord
  x : Vector Byte Config.nReg
  byte0 : Option Byte
  byte1 : Option Byte
  byte2 : Option Byte
deriving DecidableEq, Repr

/-- The byte at an address, absent past the last cell; no fault (D15). -/
def inspectByte (s : State) (a : Nat) : Option Byte :=
  if a < Config.memSize then some (s.mem.read a) else none

/-- The read-only snapshot (R41). It shows neither FL nor status nor the fault record. -/
def snapshot (s : State) : Snapshot where
  pc := s.pc
  x := s.x
  byte0 := inspectByte s s.pc.toNat
  byte1 := inspectByte s (s.pc.toNat + 1)
  byte2 := inspectByte s (s.pc.toNat + 2)

/-! Output (R42; 42_output.md R71) -/

/-- The decimal digits of a byte, most significant first, with no leading zeros. -/
def decimalDigits (v : Byte) : List Nat :=
  let n := v.toNat
  if n < 10 then [n] else if n < 100 then [n / 10, n % 10] else [n / 100, n / 10 % 10, n % 10]

/-- One emitted byte as text: its decimal numeral in ASCII, then LF (42_output.md R71, D13). -/
def renderByte (v : Byte) : List Byte :=
  (decimalDigits v).map (fun d => BitVec.ofNat Config.wordBits (0x30 + d)) ++ [0x0A#8]

/-- The text of the output stream, in emission order (R42). -/
def renderOutput (out : List Byte) : List Byte := out.flatMap renderByte

/-! Status (R43) -/

/-- The code of a fault kind (60_exceptions.md R94, D12). -/
def FaultKind.code : FaultKind → Nat
  | .unknownOpcode => 1
  | .divideByZero => 2
  | .stackOverflow => 3
  | .stackUnderflow => 4
  | .memoryRange => 5
  | .registerIndex => 6
  | .unsupportedAluOp => 7

/-- The code of the fault record, 0 for none (R94). -/
def faultCode (record : Option FaultRecord) : Nat :=
  match record with
  | none => 0
  | some f => f.kind.code

/-- The process exit status of a booted engine, none while it is running (R43, D17). -/
def exitStatus (codes : ExitCodes) (engine : Except LoadError State) : Option Nat :=
  match engine with
  | .error _ => some codes.loadFailure
  | .ok s =>
    match s.status with
    | .running => none
    | .halted => some codes.ok
    | .faulted => some codes.runtimeFault

end Sys2Proof.Machine
end

