-- ==== Sys2Proof/Machine/Run.lean ====
section
/-! DEFINITION. The run interface (20_memory.md R39) under fuel (40_execution_engine.md R68). -/
namespace Sys2Proof.Machine

/-- How a run under fuel stands. -/
inductive RunResult where
  /-- `status` became HALTED or FAULTED: the final state, readable (R66). -/
  | ended (s : State)
  /-- Still RUNNING when the fuel was used up: not an end of the run (R68). -/
  | outOfFuel (s : State)
  /-- A step gave no next state although RUNNING; no instruction does so. -/
  | stuck
deriving DecidableEq, Repr

/-- Perform steps while `status` is RUNNING, at most `fuel` of them. -/
def run (w : Wiring) (fuel : Nat) (s : State) : RunResult :=
  match s.status with
  | .halted => .ended s
  | .faulted => .ended s
  | .running =>
    match fuel with
    | 0 => .outOfFuel s
    | n + 1 =>
      match stepWith w s with
      | .next t => run w n t
      | .fault _ => .stuck
      | .refused _ => .stuck

end Sys2Proof.Machine
end

