-- ==== Sys2Proof/Safety.lean ====
section
/-! DEFINITION. The terms claims use: the invariant of reachable states, what an instruction may change, the
bytes standing at `pc`, and the state after a fault. -/
namespace Sys2Proof.Machine

/-- The range of `info` that 60_exceptions.md R94 gives each fault kind. `unsupportedAluOp` is unreachable (R101). -/
def FaultRecord.legal (f : FaultRecord) : Prop :=
  match f.kind with
  | .unknownOpcode => f.info < 256 ∧ lookupOpcode .reference (BitVec.ofNat Config.wordBits f.info) = none
  | .divideByZero => f.info < Config.nReg
  | .stackOverflow => f.info = 0
  | .stackUnderflow => Config.stackTop ≤ f.info ∧ f.info ≤ 255
  | .memoryRange => f.info = 256
  | .registerIndex => Config.nReg ≤ f.info ∧ f.info ≤ 255
  | .unsupportedAluOp => False

/-- What holds of every state a run reaches, with either WIRING. -/
structure State.Inv (s : State) : Prop where
  /-- Memory is in its canonical form. -/
  memory : s.mem.wf = true
  /-- The values the pc can reach are 0..256 (10_state.md R15). -/
  pcRange : s.pc.toNat ≤ 256
  /-- FL bits 7:1 hold 0 (10_state.md R17). -/
  reservedFlags : s.fl.toNat < 2
  /-- A fault record is present exactly when the engine is FAULTED (10_state.md R20, R21). -/
  record : s.fault.isSome = true ↔ s.status = .faulted
  /-- The record names what its kind says (60_exceptions.md R94). -/
  recordLegal : ∀ f, s.fault = some f → f.legal

/-- The state after the fault `f` in `s`, spelt out (40_execution_engine.md R63). -/
def afterFault (s : State) (kind : FaultKind) (info : Nat) : State where
  mem := s.mem
  x := s.x
  pc := s.pc
  fl := s.fl
  status := .faulted
  fault := some ⟨kind, info⟩
  out := s.out

/-- The instruction bytes `bytes` stand in memory at `pc`, all inside the 256 cells. -/
def State.codeAt (s : State) (bytes : List Byte) : Prop :=
  s.pc.toNat + bytes.length ≤ 256 ∧ ∀ k (h : k < bytes.length), s.mem.read (s.pc.toNat + k) = bytes[k]

/-- Every cell reads as before. -/
def sameMemory (s t : State) : Prop := ∀ a : Nat, t.mem.read a = s.mem.read a

/-- Every cell but `cell` reads as before. -/
def sameMemoryBut (s t : State) (cell : Nat) : Prop := ∀ a : Nat, a ≠ cell → t.mem.read a = s.mem.read a

/-- Every register but those listed is as before. -/
def sameRegsBut (s t : State) (written : List Reg) : Prop := ∀ r : Reg, r ∉ written → t.reg r = s.reg r

/-- Status and fault record are as before: the instruction neither halted nor faulted. -/
def sameRun (s t : State) : Prop := t.status = s.status ∧ t.fault = s.fault

/-- An instruction that writes at most the listed registers and `pc`. -/
def onlyRegs (s t : State) (written : List Reg) : Prop :=
  sameRegsBut s t written ∧ sameMemory s t ∧ t.fl = s.fl ∧ sameRun s t ∧ t.out = s.out

/-- The register an operand byte names, if it names one. -/
def regsNamed (b : Byte) : List Reg := if h : b.toNat < Config.nReg then [⟨b.toNat, h⟩] else []

/-- The registers an instruction may write: its destination, and SP for the four stack instructions (10_state.md
R11; 43_stack.md R72, R73; 46_alu.md R82). -/
def writtenRegs (i : Instr) : List Reg :=
  match i with
  | .ldi r _ => regsNamed r
  | .prn _ => []
  | .hlt => []
  | .psh _ => [Config.spIndex]
  | .pop r => Config.spIndex :: regsNamed r
  | .call _ => [Config.spIndex]
  | .ret => [Config.spIndex]
  | .jmp _ => []
  | .jeq _ => []
  | .jne _ => []
  | .add a _ => regsNamed a
  | .sub a _ => regsNamed a
  | .mul a _ => regsNamed a
  | .div a _ => regsNamed a
  | .mod a _ => regsNamed a
  | .inc a => regsNamed a
  | .dec a => regsNamed a
  | .cmp _ _ => []

end Sys2Proof.Machine
end

