-- ==== Sys2Proof/Certificates/Slice0/Obligations.lean ====
section
/-! DEFINITION. The statements for the provers. Each docstring names the rule or the section it formalises, and the
decision D<n> of the spec (with its log entry) where a clause rests on one. -/
open Sys2Proof Sys2Proof.Machine

/-! ## Encoding and decoding -/

/-- 30_encoding.md R44: an instruction is its opcode byte and 0, 1 or 2 operand bytes, so 1 to 3 bytes, and its
length is one more than the arity the opcode table gives the opcode. -/
def Obligations.LengthIsOnePlusArity : Prop :=
  ∀ i : Instr, ∃ row ∈ opcodeTable, row.op = i.op ∧ encode i = row.opcode :: i.operands ∧
    i.operands.length = row.operandBytes ∧ row.operandBytes ≤ 2 ∧ (encode i).length = 1 + row.operandBytes

/-- 30_encoding.md sections 1, 2 and 4: for either WIRING the decoder answers an instruction exactly when the bytes are
that instruction's encoding followed by the rest, and the configuration executes it: no bit of an encoding is
dropped, and no other bytes decode. The clause for `reference` rests on decision D1 (log entry 3). -/
def Obligations.DecodeExactlyInvertsEncode : Prop :=
  ∀ (w : Wiring) (bytes : List Byte) (i : Instr) (rest : List Byte),
    decode w bytes = .ok (i, rest) ↔ i.op.wiredIn w = true ∧ bytes = encode i ++ rest

/-- 30_encoding.md section 2: words written out bit by bit from the binary column decode to the instruction they stand for. -/
def Obligations.SpecWordsDecode : Prop :=
  decode .complete [0b10000010#8, 0b00000011#8, 0b11001000#8] = .ok (.ldi 3#8 200#8, []) ∧
  decode .complete [0b01000111#8, 0b00000010#8] = .ok (.prn 2#8, []) ∧
  decode .complete [0b01000110#8, 0b00000001#8] = .ok (.pop 1#8, []) ∧
  decode .complete [0b00010001#8] = .ok (.ret, []) ∧
  decode .complete [0b01010110#8, 0b00000101#8] = .ok (.jne 5#8, []) ∧
  decode .complete [0b10100011#8, 0b00000110#8, 0b00000001#8] = .ok (.div 6#8 1#8, []) ∧
  decode .complete [0b01100110#8, 0b00000100#8] = .ok (.dec 4#8, []) ∧
  decode .complete [0b00000001#8] = .ok (.hlt, [])

/-- 30_encoding.md section 1, 2 and 4 (the patterns it marks as derived): 18 rows, no two with one byte; bits 7:6 are the operand count;
bit 5 is 1 exactly for the ALU class; bit 4 exactly for the instructions that set the pc. -/
def Obligations.OpcodeBitPatterns : Prop :=
  opcodeTable.length = 18 ∧ (opcodeTable.map (fun row => row.opcode)).Nodup ∧
  ∀ row ∈ opcodeTable,
    (row.opcode.extractLsb' 6 2).toNat = row.operandBytes ∧
    (row.opcode.getLsbD 5 = true ↔ row.op ∈ [Op.add, .sub, .mul, .div, .mod, .inc, .dec, .cmp]) ∧
    (row.opcode.getLsbD 4 = true ↔ row.op ∈ [Op.call, .ret, .jmp, .jeq, .jne])

/-- The 18 opcode bytes of 30_encoding.md R47, hexadecimal column. -/
def Sys2Proof.Machine.listedOpcodes : List Byte :=
  [0x82#8, 0x47#8, 0x01#8, 0x45#8, 0x46#8, 0x50#8, 0x11#8, 0x54#8, 0x55#8, 0x56#8,
   0xA0#8, 0xA1#8, 0xA2#8, 0xA3#8, 0xA4#8, 0x65#8, 0x66#8, 0xA7#8]

/-- 30_encoding.md R50 and 60_exceptions.md R95: 238 bytes, 0x00 among them, are no opcode; fetching one, wherever it stands (at cell
255 too, so before any operand byte is read), raises UnknownOpcodeFault with that byte, the engine halts
with it recorded, and nothing of the remaining memory is interpreted: no step follows.
The state after the fault is the spec's decision D7 (log entry 9), the kind's name D12 (log entry 14). -/
def Obligations.UnlistedOpcodesFault : Prop :=
  ((List.range 256).filter (fun n => !(listedOpcodes.contains (BitVec.ofNat 8 n)))).length = 238 ∧
  0x00#8 ∉ listedOpcodes ∧
  ∀ (w : Wiring) (s : State), s.status = .running → s.pc.toNat ≤ 255 → s.mem.read s.pc.toNat ∉ listedOpcodes →
    stepWith w s = .next (afterFault s .unknownOpcode (s.mem.read s.pc.toNat).toNat) ∧
    ∀ t, stepWith w (afterFault s .unknownOpcode (s.mem.read s.pc.toNat).toNat) ≠ .next t

/-- 30_encoding.md section 4 (R51, the spec's decision D1, log entry 3): with WIRING = reference the opcodes of SUB, DIV, MOD, INC, DEC and
JNE raise UnknownOpcodeFault; on every other byte the two configurations take the same step.
The state after the fault is the spec's decision D7 (log entry 9). -/
def Obligations.ReferenceWiringUnwiresSix : Prop :=
  (∀ (op : Op) (s : State), op ∈ [Op.sub, .div, .mod, .inc, .dec, .jne] → s.status = .running → s.pc.toNat ≤ 255 →
    s.mem.read s.pc.toNat = op.opcode →
    stepWith .reference s = .next (afterFault s .unknownOpcode op.opcode.toNat)) ∧
  ∀ s : State, (∀ op ∈ [Op.sub, .div, .mod, .inc, .dec, .jne], s.mem.read s.pc.toNat ≠ op.opcode) →
    stepWith .reference s = stepWith .complete s

/-! ## Reset, load and the interfaces -/

/-- 10_state.md R13. -/
def Obligations.ResetRegisterFile : Prop :=
  (∀ r : Reg, r.val ≤ 6 → State.reset.reg r = 0#8) ∧ State.reset.reg 7 = 244#8

/-- 10_state.md section 9: the rest of the reset state. The values of FL and of the cells are the spec's own decisions
D2 and D3 (log entries 4 and 5). -/
def Obligations.ResetControlState : Prop :=
  State.reset.pc.toNat = 0 ∧ State.reset.status = .running ∧ State.reset.fault = none ∧ State.reset.out = [] ∧
  State.reset.fl = 0x00#8 ∧ ∀ a : Nat, State.reset.mem.read a = 0x00#8

/-- The reset state meets the invariant that every step keeps (10_state.md section 9). The clause of the reserved flag bits rests on
the spec's decision D2 (log entries 4, 27), canonical memory is the model's DESIGN CHOICE (log entry 25), the bound of pc
is decision D4 (log entry 6). -/
def Obligations.ResetMeetsInvariant : Prop := State.reset.Inv

/-- 20_memory.md section 4 and 10_state.md section 8: an image of at most 256 bytes stands from cell 0 on, every other cell holds the fill
(the spec's decision D3, log entry 5), the rest is the reset state; a longer image is refused (D16, log entry 18).
That the memory is in canonical form is the model's DESIGN CHOICE (log entry 25). -/
def Obligations.LoadPlacesImage : Prop :=
  (∀ image : List Byte, image.length ≤ 256 → ∃ s, load image = .ok s ∧
    (∀ k (h : k < image.length), s.mem.read k = image[k]) ∧
    (∀ k, image.length ≤ k → s.mem.read k = 0x00#8) ∧
    s.mem.wf = true ∧ s.x = State.reset.x ∧ s.pc = State.reset.pc ∧ s.fl = State.reset.fl ∧
    s.status = State.reset.status ∧ s.fault = State.reset.fault ∧ s.out = State.reset.out) ∧
  ∀ image : List Byte, 256 < image.length → load image = .error .imageTooLong

/-- 20_memory.md section 4: a snapshot shows pc, the registers and the three bytes at pc, absent past cell 255 (the spec's
decision D15, log entry 17). -/
def Obligations.SnapshotShowsThreeBytes : Prop :=
  ∀ s : State, (snapshot s).pc = s.pc ∧ (∀ r : Reg, (snapshot s).x[r] = s.reg r) ∧
    ∀ k b, (k, b) ∈ [(0, (snapshot s).byte0), (1, (snapshot s).byte1), (2, (snapshot s).byte2)] →
      (s.pc.toNat + k ≤ 255 → b = some (s.mem.read (s.pc.toNat + k))) ∧ (255 < s.pc.toNat + k → b = none)

/-- 20_memory.md section 4: normal halt, fault and load failure have exit statuses that can be told apart. The numbers are OPEN (the
spec's decision D17, log entry 19), so this holds for every distinct choice. That a running engine has no exit status is
the model's DESIGN CHOICE (log entry 19); the spec says nothing of it. -/
def Obligations.ExitStatusesDistinguishable : Prop :=
  ∀ codes : ExitCodes, codes.distinct → ∀ (e : LoadError) (r h f : State),
    r.status = .running → h.status = .halted → f.status = .faulted →
    exitStatus codes (.ok r) = none ∧ exitStatus codes (.ok h) = some codes.ok ∧
    exitStatus codes (.ok f) = some codes.runtimeFault ∧ exitStatus codes (.error e) = some codes.loadFailure ∧
    exitStatus codes (.ok h) ≠ exitStatus codes (.ok f) ∧ exitStatus codes (.ok h) ≠ exitStatus codes (.error e) ∧
    exitStatus codes (.ok f) ≠ exitStatus codes (.error e)

/-- 42_output.md (R71, characters and newline by the spec's decision D13, log entry 15): a byte is rendered as its decimal
numeral, without leading zeros, and one LF; a stream of one byte is that rendering, and a stream is rendered in
emission order, so it is one numeral and one LF for each byte. -/
def Obligations.OutputRendersDecimalLines : Prop :=
  (∀ v : Byte, ∃ digits : List Nat, renderByte v = digits.map (fun d => BitVec.ofNat 8 (0x30 + d)) ++ [0x0A#8] ∧
    1 ≤ digits.length ∧ digits.length ≤ 3 ∧ (∀ d ∈ digits, d ≤ 9) ∧
    digits.foldl (fun n d => 10 * n + d) 0 = v.toNat ∧ (digits.head? = some 0 → digits = [0])) ∧
  (∀ v : Byte, renderOutput [v] = renderByte v) ∧
  ∀ first second : List Byte, renderOutput (first ++ second) = renderOutput first ++ renderOutput second

/-- 95_test_vectors.md sections 1 and 3, 30_encoding.md section 5 (the form of the text is the spec's decision D19, log entry 21): the
texts of E1, E2, P1 to P6, P8's code and P9, the instructions of a program joined by `;`, and R54's example `CMP R0, R1`
assemble to the bytes the spec gives them. -/
def Obligations.SpecTextsAssemble : Prop :=
  assemble "LDI R3 200; HLT" = some [0x82#8, 0x03#8, 0xC8#8, 0x01#8] ∧
  assemble "PSH R2; POP R2; HLT" = some [0x45#8, 0x02#8, 0x46#8, 0x02#8, 0x01#8] ∧
  assemble "LDI R0 8; LDI R1 9; MUL R0 R1; PRN R0; HLT" = some
    [0x82#8, 0x00#8, 0x08#8, 0x82#8, 0x01#8, 0x09#8, 0xA2#8, 0x00#8, 0x01#8, 0x47#8, 0x00#8, 0x01#8] ∧
  assemble "LDI R0 5; PSH R0; POP R1; HLT" = some [0x82#8, 0x00#8, 0x05#8, 0x45#8, 0x00#8, 0x46#8, 0x01#8, 0x01#8] ∧
  assemble "LDI R1 8; CALL R1; PRN R0; HLT; LDI R0 42; RET" = some
    [0x82#8, 0x01#8, 0x08#8, 0x50#8, 0x01#8, 0x47#8, 0x00#8, 0x01#8, 0x82#8, 0x00#8, 0x2A#8, 0x11#8] ∧
  assemble "LDI R0 0; LDI R1 3; LDI R2 9; INC R0; PRN R0; CMP R0 R1; JNE R2; HLT" = some
    [0x82#8, 0x00#8, 0x00#8, 0x82#8, 0x01#8, 0x03#8, 0x82#8, 0x02#8, 0x09#8, 0x65#8, 0x00#8, 0x47#8,
     0x00#8, 0xA7#8, 0x00#8, 0x01#8, 0x56#8, 0x02#8, 0x01#8] ∧
  assemble "LDI R0 4; LDI R1 4; LDI R2 16; CMP R0 R1; JEQ R2; PRN R0; HLT" = some
    [0x82#8, 0x00#8, 0x04#8, 0x82#8, 0x01#8, 0x04#8, 0x82#8, 0x02#8, 0x10#8, 0xA7#8, 0x00#8, 0x01#8,
     0x55#8, 0x02#8, 0x47#8, 0x00#8, 0x01#8] ∧
  assemble "LDI R0 10; LDI R1 0; DIV R0 R1; PRN R0; HLT" = some
    [0x82#8, 0x00#8, 0x0A#8, 0x82#8, 0x01#8, 0x00#8, 0xA3#8, 0x00#8, 0x01#8, 0x47#8, 0x00#8, 0x01#8] ∧
  assemble "LDI R0 254; JMP R0" = some [0x82#8, 0x00#8, 0xFE#8, 0x54#8, 0x00#8] ∧
  assemble "POP R0" = some [0x46#8, 0x00#8] ∧
  assemble "RET" = some [0x11#8] ∧
  assemble "LDI R7 0; PSH R0" = some [0x82#8, 0x07#8, 0x00#8, 0x45#8, 0x00#8] ∧
  assemble "PRN R0" = some [0x47#8, 0x00#8] ∧
  assemble "CMP R0, R1" = some [0xA7#8, 0x00#8, 0x01#8]

/-- 30_encoding.md section 5 (R54's `0x..` and `0b..` immediates, the spec's decision D19, log entry 21; the texts are the model's own
examples): an immediate in hexadecimal or in binary assembles as the decimal one of its value. -/
def Obligations.ImmediateRadixesAgree : Prop :=
  assemble "LDI R0 0x2A" = assemble "LDI R0 42" ∧ assemble "LDI R0 0b101010" = assemble "LDI R0 42" ∧
  assemble "LDI R0 42" = some [0x82#8, 0x00#8, 0x2A#8]

/-! ## The step -/

/-- 40_execution_engine.md section 2: when the bytes at pc are the encoding of an instruction the configuration has, the step is that
instruction's execution. The case w = complete is `step`. -/
def Obligations.StepRunsDecodedInstruction : Prop :=
  (∀ (w : Wiring) (s : State) (i : Instr), s.status = .running → i.op.wiredIn w = true → s.codeAt (encode i) →
    stepWith w s = exec i s) ∧
  ∀ (s : State) (i : Instr), s.status = .running → s.codeAt (encode i) → step s = exec i s

/-- 40_execution_engine.md section 2: a running engine always takes a step, whatever stands in memory. -/
def Obligations.RunningEngineAlwaysSteps : Prop :=
  ∀ (w : Wiring) (s : State), s.status = .running → ∃ t, stepWith w s = .next t

/-- 40_execution_engine.md section 2 and 60_exceptions.md section 2: executing any instruction in any state answers a next state, and it
either completes with status and fault record as they were, or halts by HLT, or is the entry of one fault
that changes nothing else (the state after a fault is the spec's decision D7, log entry 9). -/
def Obligations.ExecutionCompletesHaltsOrFaults : Prop :=
  ∀ (i : Instr) (s : State), ∃ t, exec i s = .next t ∧
    (sameRun s t ∨ (i = .hlt ∧ t.status = .halted ∧ t.fault = s.fault) ∨ ∃ kind info, t = afterFault s kind info)

/-- 40_execution_engine.md R66: no step is enabled once the engine is HALTED or FAULTED, and a run leaves the state as it is. -/
def Obligations.NoStepAfterTheEnd : Prop :=
  ∀ (w : Wiring) (s : State), s.status = .halted ∨ s.status = .faulted →
    (∀ t, stepWith w s ≠ .next t) ∧ ∀ fuel, run w fuel s = .ended s

/-- 40_execution_engine.md R56: the engine starts RUNNING at pc 0; a step is taken only by a RUNNING engine; it leaves it RUNNING, or
moves it to HALTED by HLT, or moves it to FAULTED by a fault, which is recorded; the entry of any fault ends the run.
That the entry of a fault changes nothing else is the spec's decision D7 (log entry 9). -/
def Obligations.EngineLeavesRunningOnlyByHltOrFault : Prop :=
  (State.reset.status = .running ∧ State.reset.pc.toNat = 0) ∧
  (∀ (s : State) (kind : FaultKind) (info : Nat), (afterFault s kind info).status = .faulted) ∧
  ∀ (w : Wiring) (s t : State), stepWith w s = .next t →
    s.status = .running ∧
    (t.status = .running ∨ (t.status = .halted ∧ fetchInstr w s = .ok .hlt) ∨
      ∃ kind info, t = afterFault s kind info)

/-- 40_execution_engine.md section 2 (R63, the spec's decision D7, log entry 9): a step that ends FAULTED changed no register, no cell, no
flag, no output and not pc. -/
def Obligations.FaultingStepIsPrecise : Prop :=
  ∀ (w : Wiring) (s t : State), stepWith w s = .next t → t.status = .faulted →
    sameRegsBut s t [] ∧ sameMemory s t ∧ t.fl = s.fl ∧ t.out = s.out ∧ t.pc = s.pc ∧ t.fault.isSome = true

/-- 10_state.md section 5: from a state of the invariant a step finds no fault record, and it leaves one, naming what
60_exceptions.md section 1 says of its kind, exactly when it ends FAULTED.
The kinds and their info are the spec's decision D12 (log entry 14); the premise rests on log entries 4, 6, 25 and 27. -/
def Obligations.FaultRecordIsSetOnce : Prop :=
  ∀ (w : Wiring) (s t : State), s.Inv → stepWith w s = .next t →
    s.fault = none ∧ (t.status = .faulted ↔ ∃ f, t.fault = some f ∧ f.legal)

/-- 60_exceptions.md R101, 46_alu.md section 1: no step raises UnsupportedAluOpFault. -/
def Obligations.UnsupportedAluOpIsUnreachable : Prop :=
  ∀ (w : Wiring) (s t : State) (f : FaultRecord), stepWith w s = .next t → t.fault = some f → t.fault ≠ s.fault →
    f.kind ≠ .unsupportedAluOp

/-- 40_execution_engine.md section 2 (R62 points 1 to 3, the spec's decisions D4 and D8, log entries 6 and 10): the fetch faults and their order.
The state after the fault is the spec's decision D7 (log entry 9). -/
def Obligations.FetchFaultsInOrder : Prop :=
  ∀ (w : Wiring) (s : State), s.status = .running →
    (256 ≤ s.pc.toNat → stepWith w s = .next (afterFault s .memoryRange s.pc.toNat)) ∧
    (s.pc.toNat ≤ 255 → lookupOpcode w (s.mem.read s.pc.toNat) = none →
      stepWith w s = .next (afterFault s .unknownOpcode (s.mem.read s.pc.toNat).toNat)) ∧
    ∀ row k, lookupOpcode w (s.mem.read s.pc.toNat) = some row → 1 ≤ k → k ≤ row.operandBytes → s.pc.toNat + k = 256 →
      stepWith w s = .next (afterFault s .memoryRange 256)

/-- 30_encoding.md section 3 and 40_execution_engine.md section 2 (R62 point 4, the spec's decisions D8 and D9, log entries 10 and 11): of the
register operands, the first byte above 7 raises RegisterIndexFault before the instruction's own check and any effect.
The state after the fault is the spec's decision D7 (log entry 9). -/
def Obligations.RegisterOperandFaultsFirst : Prop :=
  ∀ (i : Instr) (s : State) (b : Byte), i.registerOperands.find? (fun c => decide (7 < c.toNat)) = some b →
    exec i s = .next (afterFault s .registerIndex b.toNat)

/-- 60_exceptions.md section 1 (the kinds and their info are the spec's decision D12, log entry 14): when an instruction's execution is a
fault's entry, the fault is one the table gives that instruction, with its cause and its info: a zero divisor is the
register the second operand names.
The state after the fault is the spec's decision D7 (log entry 9). -/
def Obligations.FaultsHaveTheirCause : Prop :=
  ∀ (i : Instr) (s : State) (kind : FaultKind) (info : Nat), s.status = .running →
    exec i s = .next (afterFault s kind info) →
    match kind with
    | .unknownOpcode => False
    | .divideByZero => i.op ∈ [Op.div, .mod] ∧ ∃ b : Reg, i.operands[1]? = some b.byte ∧ info = b.val ∧ s.reg b = 0#8
    | .stackOverflow => i.op ∈ [Op.psh, .call] ∧ s.sp = 0#8 ∧ info = 0
    | .stackUnderflow => i.op ∈ [Op.pop, .ret] ∧ 244 ≤ s.sp.toNat ∧ info = s.sp.toNat
    | .memoryRange => i.op = .call ∧ 254 ≤ s.pc.toNat ∧ info = s.pc.toNat + 2
    | .registerIndex => ∃ b ∈ i.registerOperands, 7 < b.toNat ∧ info = b.toNat
    | .unsupportedAluOp => False

/-- 40_execution_engine.md section 2 and 10_state.md section 3 (no wrap by the spec's decision D4, pc after a fault by D7, pc after HLT by D11; log entries 6, 9 and 13): a step that
keeps running advances pc past the instruction exactly, without wrap, or sets it to a byte, which only
CALL, RET, JMP, JEQ with the equal flag set and JNE with it clear do; a step that halts or faults leaves it. -/
def Obligations.PcAdvanceIsExact : Prop :=
  ∀ (w : Wiring) (s t : State) (i : Instr), s.status = .running → fetchInstr w s = .ok i → stepWith w s = .next t →
    (t.status ≠ .running → t.pc = s.pc) ∧
    (t.status = .running →
      (t.pc.toNat = s.pc.toNat + (encode i).length ∧ i.op ∉ [Op.call, .ret, .jmp] ∧
        (i.op = .jeq → s.fl.getLsbD 0 = false) ∧ (i.op = .jne → s.fl.getLsbD 0 = true)) ∨
      (t.pc.toNat ≤ 255 ∧ i.op ∈ [Op.call, .ret, .jmp, .jeq, .jne] ∧
        (i.op = .jeq → s.fl.getLsbD 0 = true) ∧ (i.op = .jne → s.fl.getLsbD 0 = false)))

/-- The invariant of reachable states is kept by every step, with either WIRING: a legal fault record exactly when FAULTED
(10_state.md section 5, 60_exceptions.md section 1; kinds and info by the spec's decision D12, log entry 14), canonical memory (the model's DESIGN CHOICE, log entry 25), pc in
0..256 (the spec's decision D4, log entry 6), reserved flag bits 0 (inferred from the reset value of decision D2, log
entries 4, 27). -/
def Obligations.StepKeepsInvariant : Prop :=
  ∀ (w : Wiring) (s t : State), s.Inv → stepWith w s = .next t → t.Inv

/-- Whatever image is loaded, every state a run comes to meets the invariant (20_memory.md section 4, 10_state.md section 5); its clauses
rest on log entries 4, 6, 14, 25 and 27 (the spec's decisions D2, D4 and D12, and the model's form of memory). -/
def Obligations.RunsFromAnyImageKeepInvariant : Prop :=
  ∀ (w : Wiring) (image : List Byte) (s t : State) (fuel : Nat), load image = .ok s →
    run w fuel s = .ended t ∨ run w fuel s = .outOfFuel t → t.Inv

/-- 40_execution_engine.md sections 1 and 2: a run that ended has ended for every greater fuel, in the same state, and a run is never stuck: fuel
used up is no end. -/
def Obligations.MoreFuelKeepsTheEnd : Prop :=
  (∀ (w : Wiring) (n k : Nat) (s t : State), run w n s = .ended t → run w (n + k) s = .ended t ∧ t.status ≠ .running) ∧
  ∀ (w : Wiring) (n : Nat) (s : State), run w n s ≠ .stuck

/-! ## Frames: what no instruction changes -/

/-- 10_state.md sections 2 and 4, 43_stack.md section 1: an instruction writes no register but its destination and, for PSH, POP, CALL and RET, SP. -/
def Obligations.RegisterFrame : Prop :=
  ∀ (i : Instr) (s t : State), exec i s = .next t → sameRegsBut s t (writtenRegs i)

/-- 20_memory.md section 1: PSH and CALL write at most the cell at the decremented SP, and no other instruction writes memory. -/
def Obligations.MemoryFrame : Prop :=
  ∀ (i : Instr) (s t : State), exec i s = .next t →
    (i.op ∈ [Op.psh, .call] → ∀ a : Nat, a ≠ (s.sp - 1#8).toNat → t.mem.read a = s.mem.read a) ∧
    (i.op ∉ [Op.psh, .call] → ∀ a : Nat, t.mem.read a = s.mem.read a)

/-- 10_state.md section 4 (R17, which the spec marks as derived): CMP alone writes FL, and only its bit 0. -/
def Obligations.OnlyCmpWritesFlagBitZero : Prop :=
  ∀ (i : Instr) (s t : State), exec i s = .next t →
    (i.op ≠ .cmp → t.fl = s.fl) ∧ ∀ k, 1 ≤ k → t.fl.getLsbD k = s.fl.getLsbD k

/-- 10_state.md R18: another flag register changes nothing but the flag register of any instruction's result, unless the
instruction is JEQ or JNE and bit 0 differs. -/
def Obligations.OnlyJeqJneReadFlagBitZero : Prop :=
  ∀ (i : Instr) (s t : State) (fl : Byte), exec i s = .next t →
    (i.op ∉ [Op.jeq, .jne] ∨ fl.getLsbD 0 = s.fl.getLsbD 0) →
    ∃ u, exec i { s with fl := fl } = .next u ∧ { u with fl := t.fl } = t

/-- 10_state.md R22: the output is empty at reset, and an instruction leaves it as it is or is a PRN that appends the byte its register holds. -/
def Obligations.OnlyPrnAppendsOutput : Prop :=
  State.reset.out = [] ∧
  ∀ (i : Instr) (s t : State), exec i s = .next t →
    t.out = s.out ∨ ∃ r : Reg, i = .prn r.byte ∧ t.out = s.out ++ [s.reg r]

/-- 46_alu.md R82: an ALU instruction changes only the named register x[a], whichever register it is, or, for CMP, only FL[0];
it touches no memory and no output, and the pc only by the engine's advance.
The advance is a sum modulo 512 (log entry 6), exact at every pc at which a step executes. That pc stays when the
instruction faults is the spec's decision D7 (log entry 9). -/
def Obligations.AluChangesOnlyWhatItNames : Prop :=
  ∀ (i : Instr) (s t : State), i.op ∈ [Op.add, .sub, .mul, .div, .mod, .inc, .dec, .cmp] → exec i s = .next t →
    (∀ r : Reg, t.reg r ≠ s.reg r → i.op ≠ .cmp ∧ i.operands.head? = some r.byte) ∧
    (∀ k, t.fl.getLsbD k ≠ s.fl.getLsbD k → i.op = .cmp ∧ k = 0) ∧
    sameMemory s t ∧ t.out = s.out ∧ (t.pc = s.pc ∨ t.pc = s.pc + BitVec.ofNat 9 (encode i).length)

/-! ## The instructions: encoding, result, completion and frame of each.
The shared faults (fetch, register operands) are the statements above. -/

/-- 41_data_movement.md, LDI.
The advance is a sum modulo 512 (log entry 6), exact at every pc at which a step executes. -/
def Obligations.LdiLoadsImmediate : Prop :=
  (∀ r imm : Byte, encode (.ldi r imm) = [0x82#8, r, imm]) ∧
  ∀ (s : State) (r : Reg) (imm : Byte), ∃ t, exec (.ldi r.byte imm) s = .next t ∧
    t.reg r = imm ∧ t.pc = s.pc + 3#9 ∧ onlyRegs s t [r]

/-- 42_output.md, PRN.
The advance is a sum modulo 512 (log entry 6), exact at every pc at which a step executes. -/
def Obligations.PrnEmitsRegister : Prop :=
  (∀ r : Byte, encode (.prn r) = [0x47#8, r]) ∧
  ∀ (s : State) (r : Reg), ∃ t, exec (.prn r.byte) s = .next t ∧
    t.out = s.out ++ [s.reg r] ∧ t.pc = s.pc + 2#9 ∧ sameRegsBut s t [] ∧ sameMemory s t ∧ t.fl = s.fl ∧ sameRun s t

/-- 47_halt.md, HLT; that pc stays is the spec's decision D11 (log entry 13). -/
def Obligations.HltHalts : Prop :=
  encode .hlt = [0x01#8] ∧
  ∀ s : State, ∃ t, exec .hlt s = .next t ∧ t.status = .halted ∧ t.fault = s.fault ∧ t.pc = s.pc ∧
    sameRegsBut s t [] ∧ sameMemory s t ∧ t.fl = s.fl ∧ t.out = s.out

/-- 43_stack.md, PSH, for every register: R7 pushes the decremented SP (the spec's decision D5, log entry 7); the bound
check is made before any change (D6, log entry 8).
The advance is a sum modulo 512 (log entry 6), exact at every pc at which a step executes.
The state after the fault is the spec's decision D7 (log entry 9). -/
def Obligations.PshPushesRegister : Prop :=
  (∀ r : Byte, encode (.psh r) = [0x45#8, r]) ∧
  (∀ (s : State) (r : Reg), s.sp.toNat ≠ 0 → ∃ t, exec (.psh r.byte) s = .next t ∧
    t.sp.toNat = s.sp.toNat - 1 ∧
    t.mem.read (s.sp.toNat - 1) = (if r = 7 then s.sp - 1#8 else s.reg r) ∧
    sameMemoryBut s t (s.sp.toNat - 1) ∧ sameRegsBut s t [7] ∧ t.pc = s.pc + 2#9 ∧ t.fl = s.fl ∧ sameRun s t ∧
    t.out = s.out) ∧
  ∀ (s : State) (r : Reg), s.sp.toNat = 0 → exec (.psh r.byte) s = .next (afterFault s .stackOverflow 0)

/-- 43_stack.md, POP, for every register: R7 is left holding the popped value plus one, mod 256 (the spec's decision D5, log
entry 7); the bound check is made before any change (D6, log entry 8).
The advance is a sum modulo 512 (log entry 6), exact at every pc at which a step executes.
The state after the fault is the spec's decision D7 (log entry 9). -/
def Obligations.PopPopsRegister : Prop :=
  (∀ r : Byte, encode (.pop r) = [0x46#8, r]) ∧
  (∀ (s : State) (r : Reg), s.sp.toNat < 244 → ∃ t, exec (.pop r.byte) s = .next t ∧
    (r ≠ 7 → t.reg r = s.mem.read s.sp.toNat ∧ t.sp.toNat = s.sp.toNat + 1) ∧
    (r = 7 → t.sp.toNat = ((s.mem.read s.sp.toNat).toNat + 1) % 256) ∧
    t.pc = s.pc + 2#9 ∧ onlyRegs s t [r, 7]) ∧
  ∀ (s : State) (r : Reg), 244 ≤ s.sp.toNat → exec (.pop r.byte) s = .next (afterFault s .stackUnderflow s.sp.toNat)

/-- 44_subroutine.md, CALL, for every register: R7 jumps to the decremented SP (the spec's decision D5, log entry 7); the push check
comes before the return address check (D8, D10; log entries 10 and 12).
The state after the fault is the spec's decision D7 (log entry 9). -/
def Obligations.CallPushesReturnAddress : Prop :=
  (∀ r : Byte, encode (.call r) = [0x50#8, r]) ∧
  (∀ (s : State) (r : Reg), s.sp.toNat ≠ 0 → s.pc.toNat + 2 ≤ 255 → ∃ t, exec (.call r.byte) s = .next t ∧
    t.sp.toNat = s.sp.toNat - 1 ∧ (t.mem.read (s.sp.toNat - 1)).toNat = s.pc.toNat + 2 ∧
    t.pc.toNat = (if r = 7 then s.sp.toNat - 1 else (s.reg r).toNat) ∧
    sameMemoryBut s t (s.sp.toNat - 1) ∧ sameRegsBut s t [7] ∧ t.fl = s.fl ∧ sameRun s t ∧ t.out = s.out) ∧
  (∀ (s : State) (r : Reg), s.sp.toNat = 0 → exec (.call r.byte) s = .next (afterFault s .stackOverflow 0)) ∧
  ∀ (s : State) (r : Reg), s.sp.toNat ≠ 0 → 255 < s.pc.toNat + 2 →
    exec (.call r.byte) s = .next (afterFault s .memoryRange (s.pc.toNat + 2))

/-- 44_subroutine.md, RET; the bound check is made before any change (the spec's decision D6, log entry 8).
The state after the fault is the spec's decision D7 (log entry 9). -/
def Obligations.RetPopsPc : Prop :=
  encode .ret = [0x11#8] ∧
  (∀ s : State, s.sp.toNat < 244 → ∃ t, exec .ret s = .next t ∧
    t.pc.toNat = (s.mem.read s.sp.toNat).toNat ∧ t.sp.toNat = s.sp.toNat + 1 ∧ onlyRegs s t [7]) ∧
  ∀ s : State, 244 ≤ s.sp.toNat → exec .ret s = .next (afterFault s .stackUnderflow s.sp.toNat)

/-- 45_jumps.md, JMP. -/
def Obligations.JmpJumps : Prop :=
  (∀ r : Byte, encode (.jmp r) = [0x54#8, r]) ∧
  ∀ (s : State) (r : Reg), ∃ t, exec (.jmp r.byte) s = .next t ∧ t.pc.toNat = (s.reg r).toNat ∧ onlyRegs s t []

/-- 45_jumps.md, JEQ.
The advance is a sum modulo 512 (log entry 6), exact at every pc at which a step executes. -/
def Obligations.JeqJumpsIfEqual : Prop :=
  (∀ r : Byte, encode (.jeq r) = [0x55#8, r]) ∧
  ∀ (s : State) (r : Reg), ∃ t, exec (.jeq r.byte) s = .next t ∧ onlyRegs s t [] ∧
    (s.fl.getLsbD 0 = true → t.pc.toNat = (s.reg r).toNat) ∧ (s.fl.getLsbD 0 = false → t.pc = s.pc + 2#9)

/-- 45_jumps.md, JNE.
The advance is a sum modulo 512 (log entry 6), exact at every pc at which a step executes. -/
def Obligations.JneJumpsIfNotEqual : Prop :=
  (∀ r : Byte, encode (.jne r) = [0x56#8, r]) ∧
  ∀ (s : State) (r : Reg), ∃ t, exec (.jne r.byte) s = .next t ∧ onlyRegs s t [] ∧
    (s.fl.getLsbD 0 = false → t.pc.toNat = (s.reg r).toNat) ∧ (s.fl.getLsbD 0 = true → t.pc = s.pc + 2#9)

/-- 46_alu.md, ADD: (x + y) mod 256, for every pair of registers, equal ones too.
The advance is a sum modulo 512 (log entry 6), exact at every pc at which a step executes. -/
def Obligations.AddAddsModulo256 : Prop :=
  (∀ a b : Byte, encode (.add a b) = [0xA0#8, a, b]) ∧
  ∀ (s : State) (a b : Reg), ∃ t, exec (.add a.byte b.byte) s = .next t ∧
    (t.reg a).toNat = ((s.reg a).toNat + (s.reg b).toNat) % 256 ∧ t.pc = s.pc + 3#9 ∧ onlyRegs s t [a]

/-- 46_alu.md, SUB: (x - y) mod 256, the remainder nonnegative.
The advance is a sum modulo 512 (log entry 6), exact at every pc at which a step executes. -/
def Obligations.SubSubtractsModulo256 : Prop :=
  (∀ a b : Byte, encode (.sub a b) = [0xA1#8, a, b]) ∧
  ∀ (s : State) (a b : Reg), ∃ t, exec (.sub a.byte b.byte) s = .next t ∧
    ((t.reg a).toNat : Int) = (((s.reg a).toNat : Int) - ((s.reg b).toNat : Int)) % 256 ∧ t.pc = s.pc + 3#9 ∧
    onlyRegs s t [a]

/-- 46_alu.md, MUL: the low 8 bits of the product.
The advance is a sum modulo 512 (log entry 6), exact at every pc at which a step executes. -/
def Obligations.MulMultipliesModulo256 : Prop :=
  (∀ a b : Byte, encode (.mul a b) = [0xA2#8, a, b]) ∧
  ∀ (s : State) (a b : Reg), ∃ t, exec (.mul a.byte b.byte) s = .next t ∧
    (t.reg a).toNat = ((s.reg a).toNat * (s.reg b).toNat) % 256 ∧ t.pc = s.pc + 3#9 ∧ onlyRegs s t [a]

/-- 46_alu.md, DIV with a nonzero divisor: the floor of the quotient, never wrapping.
The advance is a sum modulo 512 (log entry 6), exact at every pc at which a step executes. -/
def Obligations.DivDivides : Prop :=
  (∀ a b : Byte, encode (.div a b) = [0xA3#8, a, b]) ∧
  ∀ (s : State) (a b : Reg), s.reg b ≠ 0#8 → ∃ t, exec (.div a.byte b.byte) s = .next t ∧
    (t.reg a).toNat = (s.reg a).toNat / (s.reg b).toNat ∧ t.pc = s.pc + 3#9 ∧ onlyRegs s t [a]

/-- 46_alu.md, MOD with a nonzero divisor: the remainder, below the divisor.
The advance is a sum modulo 512 (log entry 6), exact at every pc at which a step executes. -/
def Obligations.ModTakesRemainder : Prop :=
  (∀ a b : Byte, encode (.mod a b) = [0xA4#8, a, b]) ∧
  ∀ (s : State) (a b : Reg), s.reg b ≠ 0#8 → ∃ t, exec (.mod a.byte b.byte) s = .next t ∧
    (t.reg a).toNat = (s.reg a).toNat % (s.reg b).toNat ∧ t.pc = s.pc + 3#9 ∧ onlyRegs s t [a]

/-- 60_exceptions.md section 1 (R96) and 46_alu.md section 2: DIV and MOD raise DivideByZeroFault when the divisor register holds 0,
before the destination is written, and the engine halts with it recorded. The kind and its info, the divisor's
register index, are the spec's decision D12 (log entry 14), the state after the fault D7 (log entry 9). -/
def Obligations.DivModByZeroFault : Prop :=
  ∀ (s : State) (a b : Reg), s.reg b = 0#8 →
    exec (.div a.byte b.byte) s = .next (afterFault s .divideByZero b.val) ∧
    exec (.mod a.byte b.byte) s = .next (afterFault s .divideByZero b.val)

/-- 46_alu.md, INC: for R7 too, with no stack check.
The advance is a sum modulo 512 (log entry 6), exact at every pc at which a step executes. -/
def Obligations.IncIncrementsModulo256 : Prop :=
  (∀ a : Byte, encode (.inc a) = [0x65#8, a]) ∧
  ∀ (s : State) (a : Reg), ∃ t, exec (.inc a.byte) s = .next t ∧
    (t.reg a).toNat = ((s.reg a).toNat + 1) % 256 ∧ t.pc = s.pc + 2#9 ∧ onlyRegs s t [a]

/-- 46_alu.md, DEC: for R7 too, with no stack check; 0 becomes 255.
The advance is a sum modulo 512 (log entry 6), exact at every pc at which a step executes. -/
def Obligations.DecDecrementsModulo256 : Prop :=
  (∀ a : Byte, encode (.dec a) = [0x66#8, a]) ∧
  ∀ (s : State) (a : Reg), ∃ t, exec (.dec a.byte) s = .next t ∧
    ((t.reg a).toNat : Int) = (((s.reg a).toNat : Int) - 1) % 256 ∧ t.pc = s.pc + 2#9 ∧ onlyRegs s t [a]

/-- 46_alu.md, CMP: E is set or cleared, bits 7:1 and all registers stay.
The advance is a sum modulo 512 (log entry 6), exact at every pc at which a step executes. -/
def Obligations.CmpSetsEqualFlag : Prop :=
  (∀ a b : Byte, encode (.cmp a b) = [0xA7#8, a, b]) ∧
  ∀ (s : State) (a b : Reg), ∃ t, exec (.cmp a.byte b.byte) s = .next t ∧
    (t.fl.getLsbD 0 = true ↔ s.reg a = s.reg b) ∧ (∀ k, 1 ≤ k → t.fl.getLsbD k = s.fl.getLsbD k) ∧
    t.pc = s.pc + 3#9 ∧ sameRegsBut s t [] ∧ sameMemory s t ∧ sameRun s t ∧ t.out = s.out

/-! ## Properties of two instructions -/

/-- 46_alu.md, the identity its MOD rule derives: quotient times divisor plus remainder is the dividend. -/
def Obligations.DivModReconstructsDividend : Prop :=
  ∀ (s : State) (a b : Reg), s.reg b ≠ 0#8 → ∃ q m, exec (.div a.byte b.byte) s = .next q ∧
    exec (.mod a.byte b.byte) s = .next m ∧
    (q.reg a).toNat * (s.reg b).toNat + (m.reg a).toNat = (s.reg a).toNat ∧ (m.reg a).toNat < (s.reg b).toNat

/-- 43_stack.md, the source's property after POP, for every register and every SP a pop may leave: PSH then POP of the same register
gives every register back. For R7 it rests on the spec's decision D5 (log entry 7). -/
def Obligations.PshThenPopRestoresRegisters : Prop :=
  ∀ (s : State) (r : Reg), 1 ≤ s.sp.toNat → s.sp.toNat ≤ 244 → ∃ t u, exec (.psh r.byte) s = .next t ∧
    exec (.pop r.byte) t = .next u ∧ ∀ q : Reg, u.reg q = s.reg q

/-- 44_subroutine.md, the source's property after RET: after CALL, a subroutine that leaves SP and the stacked return address as CALL left
them returns to the instruction after the CALL, with SP at its value before it. -/
def Obligations.CallThenRetReturns : Prop :=
  ∀ (s : State) (r : Reg), 1 ≤ s.sp.toNat → s.sp.toNat ≤ 244 → s.pc.toNat + 2 ≤ 255 →
    ∃ t, exec (.call r.byte) s = .next t ∧
      ∀ v : State, v.sp = t.sp → v.mem.read v.sp.toNat = t.mem.read t.sp.toNat →
        ∃ u, exec .ret v = .next u ∧ u.pc.toNat = s.pc.toNat + 2 ∧ u.sp = s.sp

/-- 45_jumps.md, the source's property after JNE: after CMP, JEQ transfers control exactly when the two registers are equal, JNE exactly
when they are not.
The advance is a sum modulo 512 (log entry 6), exact at every pc at which a step executes. -/
def Obligations.CmpThenBranch : Prop :=
  ∀ (s : State) (a b r : Reg), ∃ t e n, exec (.cmp a.byte b.byte) s = .next t ∧
    exec (.jeq r.byte) t = .next e ∧ exec (.jne r.byte) t = .next n ∧
    (s.reg a = s.reg b → e.pc.toNat = (s.reg r).toNat ∧ n.pc = t.pc + 2#9) ∧
    (s.reg a ≠ s.reg b → e.pc = t.pc + 2#9 ∧ n.pc.toNat = (s.reg r).toNat)
end

