-- ==== Sys2Proof/Laws/Decode.lean ====
section
/-! SUPPORT. What the opcode lookup and the decoder answer. -/
namespace Sys2Proof

/-- The decoder's table and the encoder agree on every operation. -/
theorem lookupOpcode_opcode (op : Op) :
    lookupOpcode .complete op.opcode = some ⟨op.opcode, op, op.format.operandBytes, op.format⟩ := by
  cases op <;> decide

/-- A row that is found is a row of the table, wired, with the byte looked for. -/
theorem lookupOpcode_some {w : Wiring} {b : Byte} {row : OpcodeRow} (h : lookupOpcode w b = some row) :
    row ∈ opcodeTable ∧ row.op.wiredIn w = true ∧ row.opcode = b := by
  have hmem := List.mem_of_find?_eq_some h
  have hb := List.find?_some h
  simp only [tableFor, List.mem_filter] at hmem
  exact ⟨hmem.1, hmem.2, by simpa using hb⟩

/-- Each row of the table is what the encoder says of its operation. -/
theorem opcodeTable_rows : ∀ row ∈ opcodeTable,
    row.opcode = row.op.opcode ∧ row.operandBytes = row.op.format.operandBytes ∧ row.format = row.op.format := by
  decide

theorem decode_nil (w : Wiring) : decode w [] = .error (.missingByte 0) := rfl

/-- The decoder on an opcode the configuration has. -/
theorem decode_known {w : Wiring} {opcode : Byte} {row : OpcodeRow} (rest : List Byte)
    (h : lookupOpcode w opcode = some row) :
    decode w (opcode :: rest) =
      if rest.length < row.operandBytes then .error (.missingByte (rest.length + 1))
      else .ok (row.op.instr (rest.getD 0 0#8) (rest.getD 1 0#8), rest.drop row.operandBytes) := by
  simp [decode, h]

/-- The decoder on an opcode the configuration has not. -/
theorem decode_unknown {w : Wiring} {opcode : Byte} (rest : List Byte) (h : lookupOpcode w opcode = none) :
    decode w (opcode :: rest) = .error (.unknownOpcode opcode) := by
  simp [decode, h]

end Sys2Proof
end

