-- ==== Sys2Proof/Laws/Memory.lean ====
section
/-! SUPPORT. The laws of memory: read after write, the frame of a write, and the canonical form kept by every operation. -/
namespace Sys2Proof.Machine

@[simp] theorem Memory.read_nil (a : Nat) : Memory.read [] a = Config.memFill := rfl

theorem Memory.read_cons (k : Nat) (v : Byte) (m : Memory) (a : Nat) :
    Memory.read ((k, v) :: m) a = if k = a then v else Memory.read m a := rfl

theorem Memory.read_without (m : Memory) {a b : Nat} (h : b ≠ a) :
    Memory.read (m.filter (fun c => c.1 != a)) b = Memory.read m b := by
  induction m with
  | nil => rfl
  | cons c m ih =>
    obtain ⟨k, v⟩ := c
    by_cases hk : k = a
    · subst hk
      simp [Memory.read_cons, ih, Ne.symm h]
    · simp [Memory.read_cons, ih, hk]

theorem Memory.read_without_same (m : Memory) (a : Nat) :
    Memory.read (m.filter (fun c => c.1 != a)) a = Config.memFill := by
  induction m with
  | nil => rfl
  | cons c m ih =>
    obtain ⟨k, v⟩ := c
    by_cases hk : k = a
    · subst hk
      simpa using ih
    · simpa [hk, Memory.read_cons] using ih

theorem Memory.read_insert_other (m : Memory) (v : Byte) {a b : Nat} (h : b ≠ a) :
    Memory.read (Memory.insert m a v) b = Memory.read m b := by
  induction m with
  | nil => simp [Memory.insert, Memory.read_cons, Ne.symm h]
  | cons c m ih =>
    obtain ⟨k, w⟩ := c
    by_cases hk : a < k
    · simp [Memory.insert, hk, Memory.read_cons, Ne.symm h]
    · simp [Memory.insert, hk, Memory.read_cons, ih]

theorem Memory.read_insert_same (m : Memory) (a : Nat) (v : Byte) (h : ∀ c ∈ m, c.1 ≠ a) :
    Memory.read (Memory.insert m a v) a = v := by
  induction m with
  | nil => simp [Memory.insert, Memory.read_cons]
  | cons c m ih =>
    obtain ⟨k, w⟩ := c
    have hk : k ≠ a := h (k, w) (by simp)
    by_cases hlt : a < k
    · simp [Memory.insert, hlt, Memory.read_cons]
    · simp [Memory.insert, hlt, Memory.read_cons, hk, ih (fun c hc => h c (by simp [hc]))]

/-- A read gives the byte last written there (20_memory.md R34). -/
@[simp] theorem Memory.read_write_same (m : Memory) (a : Nat) (v : Byte) : (m.write a v).read a = v := by
  by_cases hv : v = Config.memFill
  · simp [Memory.write, hv, Memory.read_without_same]
  · simp only [Memory.write, hv, if_false]
    exact Memory.read_insert_same _ _ _ (by simp [List.mem_filter])

/-- A write leaves every other cell alone. -/
theorem Memory.read_write_other (m : Memory) (v : Byte) {a b : Nat} (h : b ≠ a) :
    (m.write a v).read b = m.read b := by
  by_cases hv : v = Config.memFill
  · simp [Memory.write, hv, Memory.read_without m h]
  · simp [Memory.write, hv, Memory.read_insert_other _ v h, Memory.read_without m h]

/-! The canonical form -/

theorem Memory.wf_cons (k : Nat) (v : Byte) (m : Memory) :
    Memory.wf ((k, v) :: m) = true ↔
      (∀ c ∈ m, k < c.1) ∧ k < Config.memSize ∧ v ≠ Config.memFill ∧ Memory.wf m = true := by
  simp only [Memory.wf, Bool.and_eq_true, List.all_eq_true, decide_eq_true_eq, bne_iff_ne, and_assoc]

theorem Memory.wf_without (m : Memory) (a : Nat) (h : m.wf = true) :
    Memory.wf (m.filter (fun c => c.1 != a)) = true := by
  induction m with
  | nil => rfl
  | cons c m ih =>
    obtain ⟨k, v⟩ := c
    obtain ⟨h1, h2, h3, h4⟩ := (Memory.wf_cons k v m).1 h
    by_cases hk : k = a
    · simpa [hk] using ih h4
    · rw [List.filter_cons_of_pos (by simpa using hk)]
      exact (Memory.wf_cons _ _ _).2 ⟨fun c hc => h1 c (List.mem_of_mem_filter hc), h2, h3, ih h4⟩

theorem Memory.mem_insert {m : Memory} {a : Nat} {v : Byte} {c : Host.Cell} :
    c ∈ Memory.insert m a v ↔ c = (a, v) ∨ c ∈ m := by
  induction m with
  | nil => simp [Memory.insert]
  | cons d m ih =>
    obtain ⟨k, w⟩ := d
    by_cases hk : a < k
    · simp [Memory.insert, hk]
    · simp [Memory.insert, hk, ih]
      tauto

theorem Memory.wf_insert (m : Memory) (a : Nat) (v : Byte) (h : m.wf = true) (ha : a < Config.memSize)
    (hv : v ≠ Config.memFill) (hne : ∀ c ∈ m, c.1 ≠ a) : Memory.wf (Memory.insert m a v) = true := by
  induction m with
  | nil => exact (Memory.wf_cons _ _ _).2 ⟨by simp, ha, hv, rfl⟩
  | cons c m ih =>
    obtain ⟨k, w⟩ := c
    obtain ⟨h1, h2, h3, h4⟩ := (Memory.wf_cons k w m).1 h
    have hka : k ≠ a := hne (k, w) (by simp)
    by_cases hk : a < k
    · simp only [Memory.insert, hk, if_true]
      refine (Memory.wf_cons _ _ _).2 ⟨?_, ha, hv, h⟩
      intro c hc
      rcases List.mem_cons.1 hc with rfl | hc
      · exact hk
      · exact lt_trans hk (h1 c hc)
    · simp only [Memory.insert, hk, if_false]
      refine (Memory.wf_cons _ _ _).2 ⟨?_, h2, h3, ih h4 (fun c hc => hne c (by simp [hc]))⟩
      intro c hc
      rcases Memory.mem_insert.1 hc with rfl | hc
      · exact lt_of_le_of_ne (Nat.le_of_not_lt hk) hka
      · exact h1 c hc

/-- A store inside the memory keeps the canonical form. -/
theorem Memory.wf_write (m : Memory) (a : Nat) (v : Byte) (h : m.wf = true) (ha : a < Config.memSize) :
    (m.write a v).wf = true := by
  by_cases hv : v = Config.memFill
  · simpa [Memory.write, hv] using Memory.wf_without m a h
  · simp only [Memory.write, hv, if_false]
    exact Memory.wf_insert _ _ _ (Memory.wf_without m a h) ha hv (by simp [List.mem_filter])

/-- Stores at increasing addresses inside the memory keep the canonical form. -/
theorem Memory.wf_writeBytes (m : Memory) (a : Nat) (bytes : List Byte) (h : m.wf = true)
    (ha : a + bytes.length ≤ Config.memSize) : (m.writeBytes a bytes).wf = true := by
  induction bytes generalizing m a with
  | nil => exact h
  | cons b rest ih =>
    simp only [List.length_cons] at ha
    exact ih _ _ (Memory.wf_write m a b h (by omega)) (by omega)

theorem reset_memory_wf : State.reset.mem.wf = true := rfl

end Sys2Proof.Machine
end

