-- ==== Sys2Proof/Laws/State.lean ====
section
/-! SUPPORT. One lemma per field per update of State, so that no later proof unfolds a record update. -/
namespace Sys2Proof.Machine

/-! The widths of Config as numerals, the form arithmetic needs -/
theorem byte_toNat_lt (b : Byte) : b.toNat < 256 := b.isLt
theorem pcWord_toNat_lt (p : PcWord) : p.toNat < 512 := p.isLt

/-! setReg -/
theorem State.reg_setReg (s : State) (r q : Reg) (v : Byte) :
    (s.setReg r v).reg q = if r = q then v else s.reg q := by
  simp [State.setReg, State.reg, Vector.getElem_set, Fin.ext_iff]
@[simp] theorem State.reg_setReg_same (s : State) (r : Reg) (v : Byte) : (s.setReg r v).reg r = v := by
  simp [State.reg_setReg]
theorem State.reg_setReg_other (s : State) {r q : Reg} (h : r ≠ q) (v : Byte) :
    (s.setReg r v).reg q = s.reg q := by
  simp [State.reg_setReg, h]
@[simp] theorem State.setReg_mem (s : State) (r : Reg) (v : Byte) : (s.setReg r v).mem = s.mem := rfl
@[simp] theorem State.setReg_pc (s : State) (r : Reg) (v : Byte) : (s.setReg r v).pc = s.pc := rfl
@[simp] theorem State.setReg_fl (s : State) (r : Reg) (v : Byte) : (s.setReg r v).fl = s.fl := rfl
@[simp] theorem State.setReg_status (s : State) (r : Reg) (v : Byte) : (s.setReg r v).status = s.status := rfl
@[simp] theorem State.setReg_fault (s : State) (r : Reg) (v : Byte) : (s.setReg r v).fault = s.fault := rfl
@[simp] theorem State.setReg_out (s : State) (r : Reg) (v : Byte) : (s.setReg r v).out = s.out := rfl

/-! setSp and sp: SP is register 7 (10_state.md R11) -/
theorem State.setSp_eq (s : State) (v : Byte) : s.setSp v = s.setReg 7 v := rfl
theorem State.sp_eq (s : State) : s.sp = s.reg 7 := rfl
@[simp] theorem State.sp_setSp (s : State) (v : Byte) : (s.setSp v).sp = v := by
  simp [State.setSp_eq, State.sp_eq]
@[simp] theorem State.setSp_mem (s : State) (v : Byte) : (s.setSp v).mem = s.mem := rfl
@[simp] theorem State.setSp_pc (s : State) (v : Byte) : (s.setSp v).pc = s.pc := rfl
@[simp] theorem State.setSp_fl (s : State) (v : Byte) : (s.setSp v).fl = s.fl := rfl
@[simp] theorem State.setSp_status (s : State) (v : Byte) : (s.setSp v).status = s.status := rfl
@[simp] theorem State.setSp_fault (s : State) (v : Byte) : (s.setSp v).fault = s.fault := rfl
@[simp] theorem State.setSp_out (s : State) (v : Byte) : (s.setSp v).out = s.out := rfl

/-! advance -/
@[simp] theorem State.advance_pc (s : State) (n : Nat) : (s.advance n).pc = s.pc + BitVec.ofNat Config.pcBits n := rfl
@[simp] theorem State.advance_reg (s : State) (n : Nat) (r : Reg) : (s.advance n).reg r = s.reg r := rfl
@[simp] theorem State.advance_mem (s : State) (n : Nat) : (s.advance n).mem = s.mem := rfl
@[simp] theorem State.advance_fl (s : State) (n : Nat) : (s.advance n).fl = s.fl := rfl
@[simp] theorem State.advance_status (s : State) (n : Nat) : (s.advance n).status = s.status := rfl
@[simp] theorem State.advance_fault (s : State) (n : Nat) : (s.advance n).fault = s.fault := rfl
@[simp] theorem State.advance_out (s : State) (n : Nat) : (s.advance n).out = s.out := rfl
/-- The advance is exact wherever a step executes (10_state.md R15). -/
theorem State.advance_pc_toNat {s : State} {n : Nat} (h : s.pc.toNat + n < 512) :
    (s.advance n).pc.toNat = s.pc.toNat + n := by
  simp only [State.advance_pc, Config.pcBits, BitVec.toNat_add, BitVec.toNat_ofNat]
  omega

/-! jumpTo -/
@[simp] theorem State.jumpTo_pc (s : State) (v : Byte) : (s.jumpTo v).pc = v.setWidth Config.pcBits := rfl
@[simp] theorem State.jumpTo_reg (s : State) (v : Byte) (r : Reg) : (s.jumpTo v).reg r = s.reg r := rfl
@[simp] theorem State.jumpTo_mem (s : State) (v : Byte) : (s.jumpTo v).mem = s.mem := rfl
@[simp] theorem State.jumpTo_fl (s : State) (v : Byte) : (s.jumpTo v).fl = s.fl := rfl
@[simp] theorem State.jumpTo_status (s : State) (v : Byte) : (s.jumpTo v).status = s.status := rfl
@[simp] theorem State.jumpTo_fault (s : State) (v : Byte) : (s.jumpTo v).fault = s.fault := rfl
@[simp] theorem State.jumpTo_out (s : State) (v : Byte) : (s.jumpTo v).out = s.out := rfl
/-- A control transfer writes a byte, unchanged (10_state.md R15). -/
theorem State.jumpTo_pc_toNat (s : State) (v : Byte) : (s.jumpTo v).pc.toNat = v.toNat := by
  have := byte_toNat_lt v
  simp only [State.jumpTo_pc, Config.pcBits, BitVec.toNat_setWidth]
  omega

/-! emit -/
@[simp] theorem State.emit_out (s : State) (v : Byte) : (s.emit v).out = s.out ++ [v] := rfl
@[simp] theorem State.emit_reg (s : State) (v : Byte) (r : Reg) : (s.emit v).reg r = s.reg r := rfl
@[simp] theorem State.emit_mem (s : State) (v : Byte) : (s.emit v).mem = s.mem := rfl
@[simp] theorem State.emit_pc (s : State) (v : Byte) : (s.emit v).pc = s.pc := rfl
@[simp] theorem State.emit_fl (s : State) (v : Byte) : (s.emit v).fl = s.fl := rfl
@[simp] theorem State.emit_status (s : State) (v : Byte) : (s.emit v).status = s.status := rfl
@[simp] theorem State.emit_fault (s : State) (v : Byte) : (s.emit v).fault = s.fault := rfl

/-! setEqualFlag -/
@[simp] theorem State.setEqualFlag_fl (s : State) (e : Bool) : (s.setEqualFlag e).fl = withEqualBit s.fl e := rfl
@[simp] theorem State.setEqualFlag_reg (s : State) (e : Bool) (r : Reg) : (s.setEqualFlag e).reg r = s.reg r := rfl
@[simp] theorem State.setEqualFlag_mem (s : State) (e : Bool) : (s.setEqualFlag e).mem = s.mem := rfl
@[simp] theorem State.setEqualFlag_pc (s : State) (e : Bool) : (s.setEqualFlag e).pc = s.pc := rfl
@[simp] theorem State.setEqualFlag_status (s : State) (e : Bool) : (s.setEqualFlag e).status = s.status := rfl
@[simp] theorem State.setEqualFlag_fault (s : State) (e : Bool) : (s.setEqualFlag e).fault = s.fault := rfl
@[simp] theorem State.setEqualFlag_out (s : State) (e : Bool) : (s.setEqualFlag e).out = s.out := rfl

/-! takeFault -/
@[simp] theorem takeFault_status (s : State) (f : FaultRecord) : (takeFault s f).status = .faulted := rfl
@[simp] theorem takeFault_fault (s : State) (f : FaultRecord) : (takeFault s f).fault = some f := rfl
@[simp] theorem takeFault_reg (s : State) (f : FaultRecord) (r : Reg) : (takeFault s f).reg r = s.reg r := rfl
@[simp] theorem takeFault_mem (s : State) (f : FaultRecord) : (takeFault s f).mem = s.mem := rfl
@[simp] theorem takeFault_pc (s : State) (f : FaultRecord) : (takeFault s f).pc = s.pc := rfl
@[simp] theorem takeFault_fl (s : State) (f : FaultRecord) : (takeFault s f).fl = s.fl := rfl
@[simp] theorem takeFault_out (s : State) (f : FaultRecord) : (takeFault s f).out = s.out := rfl

/-! The equal flag -/
theorem equalBit_withEqualBit (fl : Byte) (e : Bool) : (withEqualBit fl e).getLsbD 0 = e := by
  cases e <;> simp [withEqualBit]
@[simp] theorem getElem_zero_withEqualBit (fl : Byte) (e : Bool) : (withEqualBit fl e)[0] = e :=
  equalBit_withEqualBit fl e
/-- CMP leaves the reserved bits alone (10_state.md R17). -/
theorem reservedBits_withEqualBit (fl : Byte) (e : Bool) {k : Nat} (hk : k ≠ 0) :
    (withEqualBit fl e).getLsbD k = fl.getLsbD k := by
  rcases Nat.lt_or_ge k 8 with hlt | hge
  · obtain rfl | rfl | rfl | rfl | rfl | rfl | rfl : k = 1 ∨ k = 2 ∨ k = 3 ∨ k = 4 ∨ k = 5 ∨ k = 6 ∨ k = 7 := by omega
    all_goals cases e <;> simp [withEqualBit]
  · rw [BitVec.getLsbD_of_ge _ _ hge, BitVec.getLsbD_of_ge _ _ hge]

end Sys2Proof.Machine
end

