-- ==== Sys2Proof/Laws/Ops.lean ====
section
/-! SUPPORT. What each shared operation does, said once: operand forms, checked accesses, push, pop, the end of a step. -/
namespace Sys2Proof.Machine

/-! Bytes that name a register -/

@[simp] theorem Reg.byte_toNat (r : Reg) : r.byte.toNat = r.val := by
  have h : r.val < 8 := r.isLt
  simp only [Reg.byte, BitVec.toNat_ofNat, Config.wordBits]
  omega

/-- Every operand byte names a register or is above 7. -/
theorem byte_register_or_above (b : Byte) : (∃ r : Reg, b = r.byte) ∨ 8 ≤ b.toNat := by
  by_cases h : b.toNat < 8
  · exact .inl ⟨⟨b.toNat, h⟩, BitVec.eq_of_toNat_eq (by simp)⟩
  · exact .inr (by omega)

/-! Operand forms -/

@[simp] theorem regOperand_byte (r : Reg) : regOperand r.byte = .ok r := by
  simp [regOperand, r.isLt]

theorem regOperand_above {b : Byte} (h : 8 ≤ b.toNat) : regOperand b = .error ⟨.registerIndex, b.toNat⟩ := by
  simp [regOperand, raise, Nat.not_lt.2 h]

/-- A register operand that is read names that register. -/
theorem regOperand_ok {b : Byte} {r : Reg} (h : regOperand b = .ok r) : b = r.byte := by
  rcases byte_register_or_above b with ⟨q, rfl⟩ | hb
  · simp only [regOperand_byte, Except.ok.injEq] at h
    rw [h]
  · rw [regOperand_above hb] at h
    cases h

@[simp] theorem regOperands_bytes (a b : Reg) : regOperands a.byte b.byte = .ok (a, b) := by
  simp [regOperands, bind, Except.bind]

theorem regOperands_first_above {a : Byte} (b : Byte) (h : 8 ≤ a.toNat) :
    regOperands a b = .error ⟨.registerIndex, a.toNat⟩ := by
  simp [regOperands, regOperand_above h, bind, Except.bind]

theorem regOperands_second_above (a : Reg) {b : Byte} (h : 8 ≤ b.toNat) :
    regOperands a.byte b = .error ⟨.registerIndex, b.toNat⟩ := by
  simp [regOperands, regOperand_above h, bind, Except.bind]

/-! Checked accesses -/

/-- A data address is a byte, so no data access leaves the memory (10_state.md R8). -/
@[simp] theorem memRead_byte (s : State) (b : Byte) : memRead s b.toNat = .ok (s.mem.read b.toNat) := by
  simp [memRead, byte_toNat_lt b]

@[simp] theorem memWrite_byte (s : State) (b v : Byte) :
    memWrite s b.toNat v = .ok { s with mem := s.mem.write b.toNat v } := by
  simp [memWrite, byte_toNat_lt b]

/-! Push and pop -/

/-- Everything a push does. -/
theorem push_eq (s : State) (value : State → Byte) :
    push s value =
      if s.sp.toNat = 0 then .error ⟨.stackOverflow, s.sp.toNat⟩
      else .ok { s.setSp (s.sp - 1#8) with
        mem := s.mem.write (s.sp - 1#8).toNat (value (s.setSp (s.sp - 1#8))) } := by
  by_cases h : s.sp.toNat = 0
  · simp [push, checkPush, h, raise, bind, Except.bind]
  · simp only [push, checkPush, h, if_false, bind, Except.bind, memWrite_byte, State.sp_setSp, State.setSp_mem]

/-- Everything a pop does. -/
theorem pop_eq (s : State) (store : State → Byte → State) :
    pop s store =
      if 244 ≤ s.sp.toNat then .error ⟨.stackUnderflow, s.sp.toNat⟩
      else .ok ((store s (s.mem.read s.sp.toNat)).setSp ((store s (s.mem.read s.sp.toNat)).sp + 1#8)) := by
  by_cases h : 244 ≤ s.sp.toNat
  · simp [pop, checkPop, h, raise, bind, Except.bind]
  · simp only [pop, checkPop, h, if_false, bind, Except.bind, memRead_byte]

/-! The end of a step -/

@[simp] theorem settle_ok (s t : State) : settle s (.ok t) = .next t := rfl
@[simp] theorem settle_error (s : State) (f : FaultRecord) : settle s (.error f) = .next (takeFault s f) := rfl

/-- A step ends in its effect or in the entry of its fault. -/
theorem settle_next {s t : State} {effect : Except FaultRecord State} (h : settle s effect = .next t) :
    effect = .ok t ∨ ∃ f, effect = .error f ∧ t = takeFault s f := by
  cases effect with
  | ok u => simp only [settle_ok, Host.Outcome.next.injEq] at h; exact .inl (by rw [h])
  | error f => simp only [settle_error, Host.Outcome.next.injEq] at h; exact .inr ⟨f, rfl, h.symm⟩

/-- A step always has a next state. -/
theorem settle_has_next (s : State) (effect : Except FaultRecord State) : ∃ t, settle s effect = .next t := by
  cases effect with
  | ok t => exact ⟨t, rfl⟩
  | error f => exact ⟨takeFault s f, rfl⟩

end Sys2Proof.Machine
end

