-- ==== Sys2Proof/Laws/Exec.lean ====
section
/-! SUPPORT. The inversion of `exec`: what an instruction's execution can answer, guards included, said once. -/
namespace Sys2Proof.Machine

/-- The completed effect of an instruction: `t` is the state after it, its operands named, its own check passed. -/
def Completed (i : Instr) (s t : State) : Prop :=
  match i with
  | .ldi r imm => ∃ d : Reg, r = d.byte ∧ t = (s.setReg d imm).advance 3
  | .prn r => ∃ q : Reg, r = q.byte ∧ t = (s.emit (s.reg q)).advance 2
  | .hlt => t = { s with status := .halted }
  | .psh r => ∃ q : Reg, r = q.byte ∧ s.sp.toNat ≠ 0 ∧
      t = State.advance { s.setSp (s.sp - 1#8) with
        mem := s.mem.write (s.sp - 1#8).toNat ((s.setSp (s.sp - 1#8)).reg q) } 2
  | .pop r => ∃ d : Reg, r = d.byte ∧ s.sp.toNat < 244 ∧
      t = ((s.setReg d (s.mem.read s.sp.toNat)).setSp ((s.setReg d (s.mem.read s.sp.toNat)).sp + 1#8)).advance 2
  | .call r => ∃ q : Reg, r = q.byte ∧ s.sp.toNat ≠ 0 ∧ s.pc.toNat + 2 < 256 ∧
      t = State.jumpTo { s.setSp (s.sp - 1#8) with
        mem := s.mem.write (s.sp - 1#8).toNat (BitVec.ofNat Config.wordBits (s.pc.toNat + 2)) } ((s.setSp (s.sp - 1#8)).reg q)
  | .ret => s.sp.toNat < 244 ∧ t = (s.jumpTo (s.mem.read s.sp.toNat)).setSp (s.sp + 1#8)
  | .jmp r => ∃ q : Reg, r = q.byte ∧ t = s.jumpTo (s.reg q)
  | .jeq r => ∃ q : Reg, r = q.byte ∧ t = if s.equalFlag then s.jumpTo (s.reg q) else s.advance 2
  | .jne r => ∃ q : Reg, r = q.byte ∧ t = if !s.equalFlag then s.jumpTo (s.reg q) else s.advance 2
  | .add a b => ∃ p q : Reg, a = p.byte ∧ b = q.byte ∧ t = (s.setReg p (aluAdd (s.reg p) (s.reg q))).advance 3
  | .sub a b => ∃ p q : Reg, a = p.byte ∧ b = q.byte ∧ t = (s.setReg p (aluSub (s.reg p) (s.reg q))).advance 3
  | .mul a b => ∃ p q : Reg, a = p.byte ∧ b = q.byte ∧ t = (s.setReg p (aluMul (s.reg p) (s.reg q))).advance 3
  | .div a b => ∃ p q : Reg, a = p.byte ∧ b = q.byte ∧ (s.reg q).toNat ≠ 0 ∧
      t = (s.setReg p (aluDiv (s.reg p) (s.reg q))).advance 3
  | .mod a b => ∃ p q : Reg, a = p.byte ∧ b = q.byte ∧ (s.reg q).toNat ≠ 0 ∧
      t = (s.setReg p (aluMod (s.reg p) (s.reg q))).advance 3
  | .inc a => ∃ p : Reg, a = p.byte ∧ t = (s.setReg p (aluInc (s.reg p))).advance 2
  | .dec a => ∃ p : Reg, a = p.byte ∧ t = (s.setReg p (aluDec (s.reg p))).advance 2
  | .cmp a b => ∃ p q : Reg, a = p.byte ∧ b = q.byte ∧ t = (s.setEqualFlag (s.reg p == s.reg q)).advance 3

/-- The check of an instruction's own that failed, once its register operands are good. -/
def OwnFault (i : Instr) (s : State) (f : FaultRecord) : Prop :=
  match i with
  | .psh _ => s.sp.toNat = 0 ∧ f = ⟨.stackOverflow, 0⟩
  | .pop _ => 244 ≤ s.sp.toNat ∧ f = ⟨.stackUnderflow, s.sp.toNat⟩
  | .call _ => (s.sp.toNat = 0 ∧ f = ⟨.stackOverflow, 0⟩) ∨
      (s.sp.toNat ≠ 0 ∧ 256 ≤ s.pc.toNat + 2 ∧ f = ⟨.memoryRange, s.pc.toNat + 2⟩)
  | .ret => 244 ≤ s.sp.toNat ∧ f = ⟨.stackUnderflow, s.sp.toNat⟩
  | .div _ b => ∃ q : Reg, b = q.byte ∧ (s.reg q).toNat = 0 ∧ f = ⟨.divideByZero, q.val⟩
  | .mod _ b => ∃ q : Reg, b = q.byte ∧ (s.reg q).toNat = 0 ∧ f = ⟨.divideByZero, q.val⟩
  | _ => False

/-- The register operand that named no register. -/
def OperandFault (i : Instr) (f : FaultRecord) : Prop :=
  ∃ b : Byte, b ∈ i.operands ∧ 8 ≤ b.toNat ∧ (∀ r imm, i = .ldi r imm → b = r) ∧ f = ⟨.registerIndex, b.toNat⟩

theorem settle_operand {s t : State} {b : Byte} {body : Reg → Except FaultRecord State}
    (h : settle s (regOperand b >>= body) = .next t) :
    (∃ r : Reg, b = r.byte ∧ settle s (body r) = .next t) ∨
      (8 ≤ b.toNat ∧ t = takeFault s ⟨.registerIndex, b.toNat⟩) := by
  rcases byte_register_or_above b with ⟨r, rfl⟩ | hb
  · exact .inl ⟨r, rfl, by simpa [bind, Except.bind] using h⟩
  · refine .inr ⟨hb, ?_⟩
    simpa [regOperand_above hb, bind, Except.bind, eq_comm] using h

theorem settle_operands {s t : State} {a b : Byte} {body : Reg × Reg → Except FaultRecord State}
    (h : settle s (regOperands a b >>= body) = .next t) :
    (∃ p q : Reg, a = p.byte ∧ b = q.byte ∧ settle s (body (p, q)) = .next t) ∨
      (8 ≤ a.toNat ∧ t = takeFault s ⟨.registerIndex, a.toNat⟩) ∨
      (8 ≤ b.toNat ∧ t = takeFault s ⟨.registerIndex, b.toNat⟩) := by
  rcases byte_register_or_above a with ⟨p, rfl⟩ | ha
  · rcases byte_register_or_above b with ⟨q, rfl⟩ | hb
    · exact .inl ⟨p, q, rfl, rfl, by simpa [bind, Except.bind] using h⟩
    · refine .inr (.inr ⟨hb, ?_⟩)
      simpa [regOperands_second_above p hb, bind, Except.bind, eq_comm] using h
  · refine .inr (.inl ⟨ha, ?_⟩)
    simpa [regOperands_first_above b ha, bind, Except.bind, eq_comm] using h

theorem binaryAlu_next {alu : Byte → Byte → Byte} {a b : Byte} {s t : State} (h : binaryAlu alu a b s = .next t) :
    (∃ p q : Reg, a = p.byte ∧ b = q.byte ∧ t = (s.setReg p (alu (s.reg p) (s.reg q))).advance 3) ∨
      (8 ≤ a.toNat ∧ t = takeFault s ⟨.registerIndex, a.toNat⟩) ∨
      (8 ≤ b.toNat ∧ t = takeFault s ⟨.registerIndex, b.toNat⟩) := by
  rcases settle_operands h with ⟨p, q, rfl, rfl, h'⟩ | h'
  · exact .inl ⟨p, q, rfl, rfl, by simpa [eq_comm] using h'⟩
  · exact .inr h'

theorem dividingAlu_next {alu : Byte → Byte → Byte} {a b : Byte} {s t : State} (h : dividingAlu alu a b s = .next t) :
    (∃ p q : Reg, a = p.byte ∧ b = q.byte ∧ (s.reg q).toNat ≠ 0 ∧
        t = (s.setReg p (alu (s.reg p) (s.reg q))).advance 3) ∨
      (∃ q : Reg, b = q.byte ∧ (s.reg q).toNat = 0 ∧ t = takeFault s ⟨.divideByZero, q.val⟩) ∨
      (8 ≤ a.toNat ∧ t = takeFault s ⟨.registerIndex, a.toNat⟩) ∨
      (8 ≤ b.toNat ∧ t = takeFault s ⟨.registerIndex, b.toNat⟩) := by
  rcases settle_operands h with ⟨p, q, rfl, rfl, h'⟩ | h'
  · by_cases hz : (s.reg q).toNat = 0
    · simp only [hz, if_true, raise, settle_error, Host.Outcome.next.injEq] at h'
      exact .inr (.inl ⟨q, rfl, hz, h'.symm⟩)
    · simp only [hz, if_false, settle_ok, Host.Outcome.next.injEq] at h'
      exact .inl ⟨p, q, rfl, rfl, hz, h'.symm⟩
  · exact .inr (.inr h')

theorem unaryAlu_next {alu : Byte → Byte} {a : Byte} {s t : State} (h : unaryAlu alu a s = .next t) :
    (∃ p : Reg, a = p.byte ∧ t = (s.setReg p (alu (s.reg p))).advance 2) ∨
      (8 ≤ a.toNat ∧ t = takeFault s ⟨.registerIndex, a.toNat⟩) := by
  rcases settle_operand h with ⟨p, rfl, h'⟩ | h'
  · exact .inl ⟨p, rfl, by simpa [eq_comm] using h'⟩
  · exact .inr h'

theorem jumpIf_next {taken : Bool} {r : Byte} {s t : State} (h : jumpIf taken r s = .next t) :
    (∃ q : Reg, r = q.byte ∧ t = if taken then s.jumpTo (s.reg q) else s.advance 2) ∨
      (8 ≤ r.toNat ∧ t = takeFault s ⟨.registerIndex, r.toNat⟩) := by
  rcases settle_operand h with ⟨q, rfl, h'⟩ | h'
  · exact .inl ⟨q, rfl, by simpa [eq_comm] using h'⟩
  · exact .inr h'

theorem execPsh_next {r : Byte} {s t : State} (h : execPsh r s = .next t) :
    Completed (.psh r) s t ∨ (s.sp.toNat = 0 ∧ t = takeFault s ⟨.stackOverflow, 0⟩) ∨
      (8 ≤ r.toNat ∧ t = takeFault s ⟨.registerIndex, r.toNat⟩) := by
  rcases settle_operand h with ⟨q, rfl, h'⟩ | h'
  · by_cases hz : s.sp.toNat = 0
    · simp only [push_eq, hz, if_true, bind, Except.bind, settle_error, Host.Outcome.next.injEq] at h'
      exact .inr (.inl ⟨hz, h'.symm⟩)
    · simp only [push_eq, hz, if_false, bind, Except.bind, settle_ok, Host.Outcome.next.injEq] at h'
      exact .inl ⟨q, rfl, hz, h'.symm⟩
  · exact .inr (.inr h')

theorem execPop_next {r : Byte} {s t : State} (h : execPop r s = .next t) :
    Completed (.pop r) s t ∨ (244 ≤ s.sp.toNat ∧ t = takeFault s ⟨.stackUnderflow, s.sp.toNat⟩) ∨
      (8 ≤ r.toNat ∧ t = takeFault s ⟨.registerIndex, r.toNat⟩) := by
  rcases settle_operand h with ⟨q, rfl, h'⟩ | h'
  · by_cases hz : 244 ≤ s.sp.toNat
    · simp only [pop_eq, hz, if_true, bind, Except.bind, settle_error, Host.Outcome.next.injEq] at h'
      exact .inr (.inl ⟨hz, h'.symm⟩)
    · simp only [pop_eq, hz, if_false, bind, Except.bind, settle_ok, Host.Outcome.next.injEq] at h'
      exact .inl ⟨q, rfl, Nat.lt_of_not_le hz, h'.symm⟩
  · exact .inr (.inr h')

theorem execCall_next {r : Byte} {s t : State} (h : execCall r s = .next t) :
    Completed (.call r) s t ∨ (s.sp.toNat = 0 ∧ t = takeFault s ⟨.stackOverflow, 0⟩) ∨
      (s.sp.toNat ≠ 0 ∧ 256 ≤ s.pc.toNat + 2 ∧ t = takeFault s ⟨.memoryRange, s.pc.toNat + 2⟩) ∨
      (8 ≤ r.toNat ∧ t = takeFault s ⟨.registerIndex, r.toNat⟩) := by
  rcases settle_operand h with ⟨q, rfl, h'⟩ | h'
  · by_cases hz : s.sp.toNat = 0
    · simp only [checkPush, hz, if_true, raise, bind, Except.bind, settle_error, Host.Outcome.next.injEq] at h'
      exact .inr (.inl ⟨hz, h'.symm⟩)
    · by_cases hp : s.pc.toNat + 2 < 256
      · simp only [checkPush, returnAddress, Config.memSize, push_eq, hz, hp, if_true, if_false, bind, Except.bind,
          settle_ok, Host.Outcome.next.injEq] at h'
        exact .inl ⟨q, rfl, hz, hp, h'.symm⟩
      · simp only [checkPush, returnAddress, Config.memSize, hz, hp, if_false, raise, bind, Except.bind,
          settle_error, Host.Outcome.next.injEq] at h'
        exact .inr (.inr (.inl ⟨hz, Nat.le_of_not_lt hp, h'.symm⟩))
  · exact .inr (.inr (.inr h'))

theorem execRet_next {s t : State} (h : execRet s = .next t) :
    Completed .ret s t ∨ (244 ≤ s.sp.toNat ∧ t = takeFault s ⟨.stackUnderflow, s.sp.toNat⟩) := by
  by_cases hz : 244 ≤ s.sp.toNat
  · simp only [execRet, pop_eq, hz, if_true, settle_error, Host.Outcome.next.injEq] at h
    exact .inr ⟨hz, h.symm⟩
  · simp only [execRet, pop_eq, hz, if_false, settle_ok, Host.Outcome.next.injEq] at h
    exact .inl ⟨Nat.lt_of_not_le hz, h.symm⟩

/-- Everything an instruction's execution can answer. -/
theorem exec_next {i : Instr} {s t : State} (h : exec i s = .next t) :
    Completed i s t ∨ ∃ f, (OwnFault i s f ∨ OperandFault i f) ∧ t = takeFault s f := by
  cases i with
  | ldi r imm =>
    rcases settle_operand h with ⟨d, rfl, h'⟩ | ⟨hb, ht⟩
    · exact .inl ⟨d, rfl, by simpa [eq_comm] using h'⟩
    · exact .inr ⟨_, .inr ⟨r, by simp [Instr.operands], hb, fun _ _ e => by cases e; rfl, rfl⟩, ht⟩
  | prn r =>
    rcases settle_operand h with ⟨q, rfl, h'⟩ | ⟨hb, ht⟩
    · exact .inl ⟨q, rfl, by simpa [eq_comm] using h'⟩
    · exact .inr ⟨_, .inr ⟨r, by simp [Instr.operands], hb, nofun, rfl⟩, ht⟩
  | hlt => exact .inl (by simpa [exec, execHlt, Completed, eq_comm] using h)
  | psh r =>
    rcases execPsh_next h with h | ⟨hz, ht⟩ | ⟨hb, ht⟩
    · exact .inl h
    · exact .inr ⟨_, .inl ⟨hz, rfl⟩, ht⟩
    · exact .inr ⟨_, .inr ⟨r, by simp [Instr.operands], hb, nofun, rfl⟩, ht⟩
  | pop r =>
    rcases execPop_next h with h | ⟨hz, ht⟩ | ⟨hb, ht⟩
    · exact .inl h
    · exact .inr ⟨_, .inl ⟨hz, rfl⟩, ht⟩
    · exact .inr ⟨_, .inr ⟨r, by simp [Instr.operands], hb, nofun, rfl⟩, ht⟩
  | call r =>
    rcases execCall_next h with h | ⟨hz, ht⟩ | ⟨hz, hp, ht⟩ | ⟨hb, ht⟩
    · exact .inl h
    · exact .inr ⟨_, .inl (.inl ⟨hz, rfl⟩), ht⟩
    · exact .inr ⟨_, .inl (.inr ⟨hz, hp, rfl⟩), ht⟩
    · exact .inr ⟨_, .inr ⟨r, by simp [Instr.operands], hb, nofun, rfl⟩, ht⟩
  | ret =>
    rcases execRet_next h with h | ⟨hz, ht⟩
    · exact .inl h
    · exact .inr ⟨_, .inl ⟨hz, rfl⟩, ht⟩
  | jmp r =>
    rcases jumpIf_next h with ⟨q, rfl, ht⟩ | ⟨hb, ht⟩
    · exact .inl ⟨q, rfl, by simpa using ht⟩
    · exact .inr ⟨_, .inr ⟨r, by simp [Instr.operands], hb, nofun, rfl⟩, ht⟩
  | jeq r =>
    rcases jumpIf_next h with ⟨q, rfl, ht⟩ | ⟨hb, ht⟩
    · exact .inl ⟨q, rfl, ht⟩
    · exact .inr ⟨_, .inr ⟨r, by simp [Instr.operands], hb, nofun, rfl⟩, ht⟩
  | jne r =>
    rcases jumpIf_next h with ⟨q, rfl, ht⟩ | ⟨hb, ht⟩
    · exact .inl ⟨q, rfl, ht⟩
    · exact .inr ⟨_, .inr ⟨r, by simp [Instr.operands], hb, nofun, rfl⟩, ht⟩
  | add a b =>
    rcases binaryAlu_next h with h | ⟨hb, ht⟩ | ⟨hb, ht⟩
    · exact .inl h
    · exact .inr ⟨_, .inr ⟨a, by simp [Instr.operands], hb, nofun, rfl⟩, ht⟩
    · exact .inr ⟨_, .inr ⟨b, by simp [Instr.operands], hb, nofun, rfl⟩, ht⟩
  | sub a b =>
    rcases binaryAlu_next h with h | ⟨hb, ht⟩ | ⟨hb, ht⟩
    · exact .inl h
    · exact .inr ⟨_, .inr ⟨a, by simp [Instr.operands], hb, nofun, rfl⟩, ht⟩
    · exact .inr ⟨_, .inr ⟨b, by simp [Instr.operands], hb, nofun, rfl⟩, ht⟩
  | mul a b =>
    rcases binaryAlu_next h with h | ⟨hb, ht⟩ | ⟨hb, ht⟩
    · exact .inl h
    · exact .inr ⟨_, .inr ⟨a, by simp [Instr.operands], hb, nofun, rfl⟩, ht⟩
    · exact .inr ⟨_, .inr ⟨b, by simp [Instr.operands], hb, nofun, rfl⟩, ht⟩
  | div a b =>
    rcases dividingAlu_next h with h | ⟨q, hq, hz, ht⟩ | ⟨hb, ht⟩ | ⟨hb, ht⟩
    · exact .inl h
    · exact .inr ⟨_, .inl ⟨q, hq, hz, rfl⟩, ht⟩
    · exact .inr ⟨_, .inr ⟨a, by simp [Instr.operands], hb, nofun, rfl⟩, ht⟩
    · exact .inr ⟨_, .inr ⟨b, by simp [Instr.operands], hb, nofun, rfl⟩, ht⟩
  | mod a b =>
    rcases dividingAlu_next h with h | ⟨q, hq, hz, ht⟩ | ⟨hb, ht⟩ | ⟨hb, ht⟩
    · exact .inl h
    · exact .inr ⟨_, .inl ⟨q, hq, hz, rfl⟩, ht⟩
    · exact .inr ⟨_, .inr ⟨a, by simp [Instr.operands], hb, nofun, rfl⟩, ht⟩
    · exact .inr ⟨_, .inr ⟨b, by simp [Instr.operands], hb, nofun, rfl⟩, ht⟩
  | inc a =>
    rcases unaryAlu_next h with h | ⟨hb, ht⟩
    · exact .inl h
    · exact .inr ⟨_, .inr ⟨a, by simp [Instr.operands], hb, nofun, rfl⟩, ht⟩
  | dec a =>
    rcases unaryAlu_next h with h | ⟨hb, ht⟩
    · exact .inl h
    · exact .inr ⟨_, .inr ⟨a, by simp [Instr.operands], hb, nofun, rfl⟩, ht⟩
  | cmp a b =>
    rcases settle_operands h with ⟨p, q, rfl, rfl, h'⟩ | ⟨hb, ht⟩ | ⟨hb, ht⟩
    · exact .inl ⟨p, q, rfl, rfl, by simpa [eq_comm] using h'⟩
    · exact .inr ⟨_, .inr ⟨a, by simp [Instr.operands], hb, nofun, rfl⟩, ht⟩
    · exact .inr ⟨_, .inr ⟨b, by simp [Instr.operands], hb, nofun, rfl⟩, ht⟩

end Sys2Proof.Machine
end

