-- ==== Sys2Proof/Laws/PerInstr.lean ====
section
/-! SUPPORT. The family RoundTrip: decoding an instruction's own bytes, whatever follows them, gives it back. -/
namespace Sys2Proof.Laws.RoundTrip

/-- The bytes of `i`, followed by any others, decode to `i` and leave the others. -/
def Statement (i : Instr) : Prop := ∀ rest : List Byte, decode .complete (encode i ++ rest) = .ok (i, rest)

theorem ldi (r imm : Byte) : Statement (.ldi r imm) := fun _ => rfl
theorem prn (r : Byte) : Statement (.prn r) := fun _ => rfl
theorem hlt : Statement .hlt := fun _ => rfl
theorem psh (r : Byte) : Statement (.psh r) := fun _ => rfl
theorem pop (r : Byte) : Statement (.pop r) := fun _ => rfl
theorem call (r : Byte) : Statement (.call r) := fun _ => rfl
theorem ret : Statement .ret := fun _ => rfl
theorem jmp (r : Byte) : Statement (.jmp r) := fun _ => rfl
theorem jeq (r : Byte) : Statement (.jeq r) := fun _ => rfl
theorem jne (r : Byte) : Statement (.jne r) := fun _ => rfl
theorem add (a b : Byte) : Statement (.add a b) := fun _ => rfl
theorem sub (a b : Byte) : Statement (.sub a b) := fun _ => rfl
theorem mul (a b : Byte) : Statement (.mul a b) := fun _ => rfl
theorem div (a b : Byte) : Statement (.div a b) := fun _ => rfl
theorem mod (a b : Byte) : Statement (.mod a b) := fun _ => rfl
theorem inc (a : Byte) : Statement (.inc a) := fun _ => rfl
theorem dec (a : Byte) : Statement (.dec a) := fun _ => rfl
theorem cmp (a b : Byte) : Statement (.cmp a b) := fun _ => rfl

end Sys2Proof.Laws.RoundTrip
end

