-- ==== Sys2Proof/Laws/Step.lean ====
section
/-! SUPPORT. What one step can do, said once: the fetch, and the inversion of `stepWith`. -/
namespace Sys2Proof.Machine

theorem codeWindow_none {s : State} (h : 256 ≤ s.pc.toNat) : codeWindow s = [] := by
  have h0 : ¬ s.pc.toNat < 256 := by omega
  have h1 : ¬ s.pc.toNat + 1 < 256 := by omega
  have h2 : ¬ s.pc.toNat + 2 < 256 := by omega
  simp [codeWindow, List.range_succ, h0, h1, h2]

theorem codeWindow_one {s : State} (h : s.pc.toNat = 255) : codeWindow s = [s.mem.read s.pc.toNat] := by
  simp [codeWindow, List.range_succ, List.filter, Config.memSize, h]

theorem codeWindow_two {s : State} (h : s.pc.toNat = 254) :
    codeWindow s = [s.mem.read s.pc.toNat, s.mem.read (s.pc.toNat + 1)] := by
  simp [codeWindow, List.range_succ, List.filter, Config.memSize, h]

theorem codeWindow_three {s : State} (h : s.pc.toNat ≤ 253) :
    codeWindow s = [s.mem.read s.pc.toNat, s.mem.read (s.pc.toNat + 1), s.mem.read (s.pc.toNat + 2)] := by
  have h0 : s.pc.toNat < 256 := by omega
  have h1 : s.pc.toNat + 1 < 256 := by omega
  have h2 : s.pc.toNat + 2 < 256 := by omega
  simp [codeWindow, List.range_succ, h0, h1, h2]

/-- The window has as many bytes as there are cells from `pc` on, three at most. -/
theorem codeWindow_length (s : State) : (codeWindow s).length = min 3 (256 - s.pc.toNat) := by
  obtain h | h | h | h : 256 ≤ s.pc.toNat ∨ s.pc.toNat = 255 ∨ s.pc.toNat = 254 ∨ s.pc.toNat ≤ 253 := by omega
  · rw [codeWindow_none h]; simp; omega
  · rw [codeWindow_one h]; simp [h]
  · rw [codeWindow_two h]; simp [h]
  · rw [codeWindow_three h]; simp; omega

theorem stepWith_running (w : Wiring) {s : State} (h : s.status = .running) :
    stepWith w s = match fetchInstr w s with
      | .error f => .next (takeFault s f)
      | .ok i => exec i s := by
  simp only [stepWith, h] <;> rfl

/-- A step that has a next state was taken by a running engine and is a fetch fault or the decoded
instruction's execution. -/
theorem stepWith_next {w : Wiring} {s t : State} (h : stepWith w s = .next t) :
    s.status = .running ∧
      ((∃ f, fetchInstr w s = .error f ∧ t = takeFault s f) ∨ ∃ i, fetchInstr w s = .ok i ∧ exec i s = .next t) := by
  cases hs : s.status with
  | halted => simp [stepWith, hs] at h
  | faulted => simp [stepWith, hs] at h
  | running =>
    rw [stepWith_running w hs] at h
    refine ⟨rfl, ?_⟩
    cases hf : fetchInstr w s with
    | error f => rw [hf] at h; exact .inl ⟨f, rfl, by simpa using h.symm⟩
    | ok i => rw [hf] at h; exact .inr ⟨i, rfl, h⟩

end Sys2Proof.Machine
end

