-- ==== Sys2Proof/Tests/Slice0.lean ====
section
/-! SUPPORT. The model's own tests. Expected results are from spec/95_test_vectors.md (V<n>, named in each comment), the
opcode table of 30_encoding.md R47 and the rules; then a witness for every statement that has hypotheses. -/
open Sys2Proof Sys2Proof.Machine
namespace Sys2Proof.Tests

/-- A reset engine with code standing at `pc`. -/
def engineAt (pc : PcWord) (code : List Byte) : State :=
  { State.reset with pc := pc, mem := State.reset.mem.writeBytes pc.toNat code }

/-- Whether a result is a next state with the property. -/
def gives (r : Result) (p : State → Bool) : Bool :=
  match r with
  | .next t => p t
  | .fault _ => false
  | .refused _ => false

/-- Whether a result is exactly the entry of a fault in `s`. -/
def faults (s : State) (r : Result) (kind : FaultKind) (info : Nat) : Bool :=
  gives r (fun t => decide (t = afterFault s kind info))

/-! ## WellFormed: an ill-formed term for each check, refused -/
theorem test_wf_first_operand : Instr.wf (.add 8#8 0#8) = false := by decide
theorem test_wf_second_operand : Instr.wf (.add 0#8 8#8) = false := by decide
theorem test_wf_ldi_register : Instr.wf (.ldi 255#8 0#8) = false := by decide
theorem test_wf_only_operand : Instr.wf (.jmp 8#8) = false := by decide
theorem test_wf_ldi_immediate_unchecked : Instr.wf (.ldi 7#8 255#8) = true := by decide
theorem test_wf_no_operand : Instr.wf .ret = true := by decide

/-! ## Decode: for every constructor a word written out from the binary column of R47 -/
theorem test_decode_ldi : decode .complete [0b10000010#8, 0b00000011#8, 0b11111111#8] = .ok (.ldi 3#8 255#8, []) := by decide
theorem test_decode_prn : decode .complete [0b01000111#8, 0b00000111#8] = .ok (.prn 7#8, []) := by decide
theorem test_decode_hlt : decode .complete [0b00000001#8] = .ok (.hlt, []) := by decide
theorem test_decode_psh : decode .complete [0b01000101#8, 0b00000001#8] = .ok (.psh 1#8, []) := by decide
theorem test_decode_pop : decode .complete [0b01000110#8, 0b00000010#8] = .ok (.pop 2#8, []) := by decide
theorem test_decode_call : decode .complete [0b01010000#8, 0b00000001#8] = .ok (.call 1#8, []) := by decide
theorem test_decode_ret : decode .complete [0b00010001#8, 0b00000001#8] = .ok (.ret, [1#8]) := by decide
theorem test_decode_jmp : decode .complete [0b01010100#8, 0b00000010#8] = .ok (.jmp 2#8, []) := by decide
theorem test_decode_jeq : decode .complete [0b01010101#8, 0b00000011#8] = .ok (.jeq 3#8, []) := by decide
theorem test_decode_jne : decode .complete [0b01010110#8, 0b00000100#8] = .ok (.jne 4#8, []) := by decide
theorem test_decode_add : decode .complete [0b10100000#8, 0b00000001#8, 0b00000010#8] = .ok (.add 1#8 2#8, []) := by decide
theorem test_decode_sub : decode .complete [0b10100001#8, 0b00000011#8, 0b00000100#8] = .ok (.sub 3#8 4#8, []) := by decide
theorem test_decode_mul : decode .complete [0b10100010#8, 0b00000101#8, 0b00000110#8] = .ok (.mul 5#8 6#8, []) := by decide
theorem test_decode_div : decode .complete [0b10100011#8, 0b00000111#8, 0b00000000#8] = .ok (.div 7#8 0#8, []) := by decide
theorem test_decode_mod : decode .complete [0b10100100#8, 0b00000000#8, 0b00000111#8] = .ok (.mod 0#8 7#8, []) := by decide
theorem test_decode_inc : decode .complete [0b01100101#8, 0b00000101#8] = .ok (.inc 5#8, []) := by decide
theorem test_decode_dec : decode .complete [0b01100110#8, 0b00000110#8] = .ok (.dec 6#8, []) := by decide
theorem test_decode_cmp : decode .complete [0b10100111#8, 0b00000010#8, 0b00000001#8] = .ok (.cmp 2#8 1#8, []) := by decide
/-- V3: a byte near LDI's is no opcode. -/
theorem test_decode_near_miss : decode .complete [0x02#8, 0#8, 0#8] = .error (.unknownOpcode 0x02#8) := by decide
/-- R60: the opcode is known, the second operand byte is missing. -/
theorem test_decode_short : decode .complete [0x82#8, 0#8] = .error (.missingByte 2) := by decide
/-- R51. -/
theorem test_decode_reference : decode .reference [0x66#8, 3#8] = .error (.unknownOpcode 0x66#8) := by decide
theorem test_table_word : decodeTableWord 24 0x0803A2 = some (.mul 3#8 8#8) := by decide
theorem test_table_word_short : decodeTableWord 8 0xFF47 = some (.prn 0#8) := by decide
theorem test_fetch_word_runs :
    gives (step (State.reset.withFetchWord 24 0xFF0382)) (fun t => t.reg 3 == 255#8 && t.pc == 3#9) = true := by decide

/-! ## Fetch and the engine (V1-V10, V86, V87) -/
/-- V1. -/
theorem test_v1_zero_opcode : faults State.reset (step State.reset) .unknownOpcode 0 = true := by decide
/-- V4. -/
theorem test_v4_fetch_past_end : faults (engineAt 256 []) (step (engineAt 256 [])) .memoryRange 256 = true := by decide
/-- V5. -/
theorem test_v5_operand_past_end : faults (engineAt 255 [0x82#8]) (step (engineAt 255 [0x82#8])) .memoryRange 256 = true := by decide
/-- V6: decoding precedes the operand fetch. -/
theorem test_v6_decode_first : faults (engineAt 255 [0xFF#8]) (step (engineAt 255 [0xFF#8])) .unknownOpcode 0xFF = true := by decide
/-- V7: the register index is checked before the divisor. -/
theorem test_v7_register_first :
    faults (engineAt 0 [0xA3#8, 9#8, 1#8]) (step (engineAt 0 [0xA3#8, 9#8, 1#8])) .registerIndex 9 = true := by decide
/-- V9. -/
theorem test_v9_reference_sub : faults (engineAt 0 [0xA1#8, 0#8, 1#8])
    (stepWith .reference (engineAt 0 [0xA1#8, 0#8, 1#8])) .unknownOpcode 0xA1 = true := by decide
/-- V10. -/
theorem test_v10_reference_add :
    gives (stepWith .reference (((engineAt 0 [0xA0#8, 0#8, 1#8]).setReg 0 3#8).setReg 1 4#8))
      (fun t => t.reg 0 == 7#8 && t.pc == 3#9) = true := by decide
/-- V87. -/
theorem test_v87_no_step : step { State.reset with status := .halted } = .fault .noStepHalted := by rfl

/-! ## The instructions -/
/-- V11. -/
theorem test_ldi_v11 : gives (step (engineAt 0 [0x82#8, 3#8, 0xFF#8])) (fun t => t.reg 3 == 255#8 && t.pc == 3#9) = true := by decide
/-- V14. -/
theorem test_ldi_v14 : faults (engineAt 0 [0x82#8, 8#8, 1#8]) (step (engineAt 0 [0x82#8, 8#8, 1#8])) .registerIndex 8 = true := by decide
/-- V18. -/
theorem test_prn_v18 : gives (step (engineAt 0 [0x47#8, 7#8])) (fun t => t.out == [244#8] && t.pc == 2#9) = true := by decide
/-- V86. -/
theorem test_hlt_v86 : gives (step (engineAt 11 [0x01#8])) (fun t => t.status == .halted && t.pc == 11#9) = true := by decide
/-- V22: PSH R7 pushes the decremented SP. -/
theorem test_psh_v22 : gives (step (engineAt 0 [0x45#8, 7#8])) (fun t => t.sp == 243#8 && t.mem.read 243 == 243#8) = true := by decide
/-- V23: the push overwrites the PSH's own opcode cell. -/
theorem test_psh_v23 : gives (step (((engineAt 0 [0x45#8, 0#8]).setReg 0 9#8).setReg 7 1#8))
    (fun t => t.sp == 0#8 && t.mem.read 0 == 9#8 && t.pc == 2#9) = true := by decide
/-- V28: POP R7 leaves the popped value plus one. -/
theorem test_pop_v28 : gives (exec (.pop 7#8) ((engineAt 243 [100#8]).setReg 7 243#8)) (fun t => t.sp == 101#8) = true := by decide
/-- V27. -/
theorem test_pop_v27 : faults (engineAt 0 [0x46#8, 1#8]) (step (engineAt 0 [0x46#8, 1#8])) .stackUnderflow 244 = true := by decide
/-- V33: CALL R7 jumps to the decremented SP. -/
theorem test_call_v33 : gives (step (engineAt 3 [0x50#8, 7#8]))
    (fun t => t.sp == 243#8 && t.mem.read 243 == 5#8 && t.pc == 243#9) = true := by decide
/-- V8: SP = 0 at address 254 is the stack fault. -/
theorem test_call_v8 : faults ((engineAt 254 [0x50#8, 1#8]).setReg 7 0#8)
    (step ((engineAt 254 [0x50#8, 1#8]).setReg 7 0#8)) .stackOverflow 0 = true := by decide
/-- V37. -/
theorem test_ret_v37 : gives (exec .ret ((engineAt 243 [5#8]).setReg 7 243#8)) (fun t => t.pc == 5#9 && t.sp == 244#8) = true := by decide
/-- V38. -/
theorem test_ret_v38 : faults (engineAt 0 [0x11#8]) (step (engineAt 0 [0x11#8])) .stackUnderflow 244 = true := by decide
/-- V41. -/
theorem test_jmp_v41 : gives (step (engineAt 0 [0x54#8, 7#8])) (fun t => t.pc == 244#9) = true := by decide
/-- V44. -/
theorem test_jeq_v44 : gives (step { (engineAt 12 [0x55#8, 2#8]).setReg 2 16#8 with fl := 1#8 }) (fun t => t.pc == 16#9) = true := by decide
/-- V51: a jump not taken at 254 leaves pc at 256. -/
theorem test_jeq_v51 : gives (step (engineAt 254 [0x55#8, 0#8])) (fun t => t.pc == 256#9) = true := by decide
/-- V49. -/
theorem test_jne_v49 : gives (step ((engineAt 0 [0x56#8, 2#8]).setReg 2 40#8)) (fun t => t.pc == 40#9) = true := by decide
/-- V48. -/
theorem test_jne_v48 : gives (step { engineAt 16 [0x56#8, 2#8] with fl := 1#8 }) (fun t => t.pc == 18#9) = true := by decide
/-- V53. -/
theorem test_add_v53 : gives (exec (.add 0#8 1#8) ((State.reset.setReg 0 200#8).setReg 1 100#8)) (fun t => t.reg 0 == 44#8) = true := by decide
/-- V56: ADD to R7, no stack check. -/
theorem test_add_v56 : gives (exec (.add 7#8 1#8) (State.reset.setReg 1 12#8)) (fun t => t.sp == 0#8) = true := by decide
/-- V58. -/
theorem test_sub_v58 : gives (exec (.sub 0#8 1#8) ((State.reset.setReg 0 5#8).setReg 1 7#8)) (fun t => t.reg 0 == 254#8) = true := by decide
/-- V63. -/
theorem test_mul_v63 : gives (exec (.mul 0#8 1#8) ((State.reset.setReg 0 255#8).setReg 1 255#8)) (fun t => t.reg 0 == 1#8) = true := by decide
/-- V65. -/
theorem test_div_v65 : gives (exec (.div 0#8 1#8) ((State.reset.setReg 0 200#8).setReg 1 7#8)) (fun t => t.reg 0 == 28#8) = true := by decide
/-- V68. -/
theorem test_div_v68 : faults (State.reset.setReg 0 10#8) (exec (.div 0#8 1#8) (State.reset.setReg 0 10#8)) .divideByZero 1 = true := by decide
/-- V71. -/
theorem test_mod_v71 : gives (exec (.mod 0#8 1#8) ((State.reset.setReg 0 200#8).setReg 1 7#8)) (fun t => t.reg 0 == 4#8) = true := by decide
/-- V75: MOD R0 R0. -/
theorem test_mod_v75 : gives (exec (.mod 0#8 0#8) (State.reset.setReg 0 9#8)) (fun t => t.reg 0 == 0#8) = true := by decide
/-- V77. -/
theorem test_inc_v77 : gives (exec (.inc 0#8) (State.reset.setReg 0 255#8)) (fun t => t.reg 0 == 0#8 && t.pc == 2#9) = true := by decide
/-- V81. -/
theorem test_dec_v81 : gives (exec (.dec 7#8) (State.reset.setReg 7 0#8)) (fun t => t.sp == 255#8 && t.status == .running) = true := by decide
/-- V83, with the reserved bits set: they stay (R17). -/
theorem test_cmp_v83 : gives (exec (.cmp 0#8 7#8) { State.reset with fl := 0xFF#8 }) (fun t => t.fl == 0xFE#8) = true := by decide
/-- V84. -/
theorem test_cmp_v84 : gives (exec (.cmp 0#8 0#8) State.reset) (fun t => t.fl == 1#8) = true := by decide

/-! ## Interfaces and memory -/
/-- V88. -/
theorem test_snapshot_v88 : snapshot (engineAt 0 [0x82#8, 0#8, 8#8]) =
    ⟨0#9, State.reset.x, some 0x82#8, some 0#8, some 8#8⟩ := by decide
/-- V89. -/
theorem test_snapshot_v89 : (snapshot (engineAt 254 [1#8, 2#8])).byte1 = some 2#8 ∧ (snapshot (engineAt 254 [1#8, 2#8])).byte2 = none := by decide
/-- V17: 255 and a newline; V16: 0 and a newline. -/
theorem test_render : renderOutput [255#8, 0#8] = [0x32#8, 0x35#8, 0x35#8, 0x0A#8, 0x30#8, 0x0A#8] := by decide
/-- R94: the codes are distinct. -/
theorem test_fault_codes : faultCode none = 0 ∧ faultCode (some ⟨.registerIndex, 8⟩) = 6 := by decide
/-- Writing the fill takes the entry out: equal memories are equal data. -/
theorem test_memory_canonical : ((Memory.write [] 5 1#8).write 3 2#8).write 5 0#8 = [(3, 2#8)] := by decide
/-- R54: a comma with spaces, and what is no instruction. -/
theorem test_assemble : assemble "ADD R1 , R7" = some [0xA0#8, 1#8, 7#8] ∧ assemble "ADD R1 R8" = none ∧ assemble "LDI R0 256" = none := by decide

/-! ## Witnesses: a concrete state and operands that meet the hypotheses of each statement -/
theorem witness_DecodeExactlyInvertsEncode :
    decode .reference [0x82#8, 3#8, 4#8, 5#8] = .ok (.ldi 3#8 4#8, [5#8]) ∧ (Instr.ldi 3#8 4#8).op.wiredIn .reference = true ∧
      [0x82#8, 3#8, 4#8, 5#8] = encode (.ldi 3#8 4#8) ++ [5#8] := by decide
theorem witness_UnlistedOpcodesFault :
    (State.reset.status = .running ∧ State.reset.pc.toNat ≤ 255 ∧ State.reset.mem.read 0 ∉ listedOpcodes) ∧
      ((engineAt 255 [0xFF#8]).status = .running ∧ (engineAt 255 [0xFF#8]).pc.toNat ≤ 255 ∧
        (engineAt 255 [0xFF#8]).mem.read 255 ∉ listedOpcodes) := by decide
theorem witness_ReferenceWiringUnwiresSix :
    (Op.jne ∈ [Op.sub, .div, .mod, .inc, .dec, .jne] ∧ (engineAt 255 [0x56#8]).status = .running ∧
      (engineAt 255 [0x56#8]).pc.toNat ≤ 255 ∧ (engineAt 255 [0x56#8]).mem.read 255 = Op.jne.opcode) ∧
      ∀ op ∈ [Op.sub, .div, .mod, .inc, .dec, .jne], State.reset.mem.read State.reset.pc.toNat ≠ op.opcode := by decide
theorem witness_LoadPlacesImage :
    (List.replicate 256 1#8).length ≤ 256 ∧ 255 < (List.replicate 256 1#8).length ∧ ([] : List Byte).length ≤ 0 ∧
      256 < (List.replicate 257 1#8).length := by
  refine ⟨?_, ?_, ?_, ?_⟩ <;> simp only [List.length_replicate, List.length_nil] <;> omega
theorem witness_SnapshotShowsThreeBytes :
    (engineAt 253 []).pc.toNat + 2 ≤ 255 ∧ 255 < (engineAt 254 []).pc.toNat + 2 ∧
      (2, (snapshot (engineAt 254 [])).byte2) ∈ [(0, (snapshot (engineAt 254 [])).byte0), (1, (snapshot (engineAt 254 [])).byte1),
        (2, (snapshot (engineAt 254 [])).byte2)] := by decide
theorem witness_ExitStatusesDistinguishable :
    ExitCodes.distinct ⟨0, 1, 2⟩ ∧ State.reset.status = .running ∧ ({ State.reset with status := .halted } : State).status = .halted ∧
      (afterFault State.reset .unknownOpcode 0).status = .faulted := by decide
theorem witness_OutputRendersDecimalLines : (decimalDigits 0#8).head? = some 0 ∧ (decimalDigits 0#8) = [0] ∧ 3 ∈ decimalDigits 230#8 := by
  decide
theorem witness_StepRunsDecodedInstruction :
    (engineAt 253 [0xA1#8, 0#8, 1#8]).status = .running ∧ (Instr.sub 0#8 1#8).op.wiredIn .complete = true ∧
      (engineAt 253 [0xA1#8, 0#8, 1#8]).codeAt (encode (.sub 0#8 1#8)) := by
  refine ⟨rfl, rfl, by decide, ?_⟩
  decide
theorem witness_RunningEngineAlwaysSteps : State.reset.status = .running := rfl
theorem witness_NoStepAfterTheEnd :
    ({ State.reset with status := .halted } : State).status = .halted ∧ (afterFault State.reset .unknownOpcode 0).status = .faulted :=
  ⟨rfl, rfl⟩
theorem witness_EngineLeavesRunningOnlyByHltOrFault :
    (∃ t, stepWith .complete (engineAt 0 [0x82#8, 0#8, 8#8]) = .next t ∧ t.status = .running) ∧
      (∃ t, stepWith .complete (engineAt 0 [0x01#8]) = .next t ∧ t.status = .halted) ∧
      ∃ t, stepWith .complete State.reset = .next t ∧ t.status = .faulted :=
  ⟨⟨_, rfl, rfl⟩, ⟨_, rfl, rfl⟩, ⟨_, rfl, rfl⟩⟩
theorem witness_FaultingStepIsPrecise : ∃ t, stepWith .complete State.reset = .next t ∧ t.status = .faulted := ⟨_, rfl, rfl⟩
/-- Reset meets the invariant, by its parts. -/
theorem witness_reset_parts :
    State.reset.mem.wf = true ∧ State.reset.pc.toNat ≤ 256 ∧ State.reset.fl.toNat < 2 ∧ State.reset.fault = none ∧
      State.reset.status = .running := by decide
/-- A state of the invariant: the reset state with another pc. -/
theorem witness_inv (pc : PcWord) (h : pc.toNat ≤ 256) : State.Inv { State.reset with pc := pc } where
  memory := rfl
  pcRange := h
  reservedFlags := (by decide : State.reset.fl.toNat < 2)
  record := by simp [State.reset]
  recordLegal := nofun
theorem witness_FaultRecordIsSetOnce :
    State.Inv { State.reset with pc := 256#9 } ∧ ∃ t, stepWith .complete { State.reset with pc := 256#9 } = .next t :=
  ⟨witness_inv _ (by decide), _, rfl⟩
theorem witness_UnsupportedAluOpIsUnreachable :
    ∃ t, stepWith .complete State.reset = .next t ∧ t.fault = some ⟨.unknownOpcode, 0⟩ ∧ t.fault ≠ State.reset.fault :=
  ⟨_, rfl, rfl, nofun⟩
theorem witness_FetchFaultsInOrder :
    ((engineAt 256 []).status = .running ∧ 256 ≤ (engineAt 256 []).pc.toNat) ∧
      ((engineAt 255 []).pc.toNat ≤ 255 ∧ lookupOpcode .complete ((engineAt 255 []).mem.read 255) = none) ∧
      (lookupOpcode .complete ((engineAt 255 [0x82#8]).mem.read 255) = some ⟨0x82#8, .ldi, 2, .f2ri⟩ ∧
        (engineAt 255 [0x82#8]).pc.toNat + 1 = 256) ∧
      (lookupOpcode .complete ((engineAt 254 [0x82#8]).mem.read 254) = some ⟨0x82#8, .ldi, 2, .f2ri⟩ ∧
        (engineAt 254 [0x82#8]).pc.toNat + 2 = 256) := by decide
theorem witness_RegisterOperandFaultsFirst :
    (Instr.ldi 8#8 255#8).registerOperands.find? (fun c => decide (7 < c.toNat)) = some 8#8 ∧
      (Instr.add 7#8 255#8).registerOperands.find? (fun c => decide (7 < c.toNat)) = some 255#8 ∧
      (Instr.div 9#8 8#8).registerOperands.find? (fun c => decide (7 < c.toNat)) = some 9#8 := by decide
theorem witness_FaultsHaveTheirCause :
    exec (.div 0#8 7#8) (State.reset.setReg 7 0#8) = .next (afterFault (State.reset.setReg 7 0#8) .divideByZero 7) ∧
      exec (.psh 0#8) (State.reset.setReg 7 0#8) = .next (afterFault (State.reset.setReg 7 0#8) .stackOverflow 0) ∧
      exec .ret State.reset = .next (afterFault State.reset .stackUnderflow 244) ∧
      exec (.call 0#8) (engineAt 254 []) = .next (afterFault (engineAt 254 []) .memoryRange 256) ∧
      exec (.jmp 8#8) State.reset = .next (afterFault State.reset .registerIndex 8) := ⟨rfl, rfl, rfl, rfl, rfl⟩
theorem witness_PcAdvanceIsExact :
    (fetchInstr .complete (engineAt 254 [0x47#8, 0#8]) = .ok (.prn 0#8) ∧
        ∃ t, stepWith .complete (engineAt 254 [0x47#8, 0#8]) = .next t ∧ t.status = .running) ∧
      (fetchInstr .complete (engineAt 254 [0x54#8, 0#8]) = .ok (.jmp 0#8) ∧
        ∃ t, stepWith .complete (engineAt 254 [0x54#8, 0#8]) = .next t ∧ t.status = .running) ∧
      (fetchInstr .complete (engineAt 255 [0x01#8]) = .ok .hlt ∧
        ∃ t, stepWith .complete (engineAt 255 [0x01#8]) = .next t ∧ t.status ≠ .running) :=
  ⟨⟨rfl, _, rfl, rfl⟩, ⟨rfl, _, rfl, rfl⟩, ⟨rfl, _, rfl, nofun⟩⟩
theorem witness_PcAdvanceIsExact_branches :
    (fetchInstr .complete { engineAt 254 [0x55#8, 0#8] with fl := 1#8 } = .ok (.jeq 0#8) ∧
        gives (stepWith .complete { engineAt 254 [0x55#8, 0#8] with fl := 1#8 }) (fun t => t.pc == 0#9) = true) ∧
      (fetchInstr .complete (engineAt 254 [0x56#8, 0#8]) = .ok (.jne 0#8) ∧
        gives (stepWith .complete (engineAt 254 [0x56#8, 0#8])) (fun t => t.pc == 0#9) = true) := by decide
theorem witness_StepKeepsInvariant :
    State.Inv { State.reset with pc := 0#9 } ∧ ∃ t, stepWith .reference { State.reset with pc := 0#9 } = .next t :=
  ⟨witness_inv _ (by decide), _, rfl⟩
theorem witness_RunsFromAnyImageKeepInvariant :
    ∃ s, load [0x01#8] = .ok s ∧ (∃ t, run .complete 1 s = .ended t) ∧ ∃ t, run .complete 0 s = .outOfFuel t :=
  ⟨_, rfl, ⟨_, rfl⟩, ⟨_, rfl⟩⟩
theorem witness_MoreFuelKeepsTheEnd : ∃ t, run .complete 1 (engineAt 0 [0x01#8]) = .ended t := ⟨_, rfl⟩
theorem witness_RegisterFrame : ∃ t, exec (.pop 7#8) ((engineAt 243 [100#8]).setReg 7 243#8) = .next t := ⟨_, rfl⟩
theorem witness_MemoryFrame :
    (∃ t, exec (.psh 0#8) State.reset = .next t ∧ (Instr.psh 0#8).op ∈ [Op.psh, .call]) ∧
      ∃ t, exec (.add 0#8 1#8) State.reset = .next t ∧ (Instr.add 0#8 1#8).op ∉ [Op.psh, .call] :=
  ⟨⟨_, rfl, by decide⟩, ⟨_, rfl, by decide⟩⟩
theorem witness_OnlyCmpWritesFlagBitZero :
    (∃ t, exec (.sub 0#8 0#8) State.reset = .next t ∧ (Instr.sub 0#8 0#8).op ≠ .cmp) ∧ ∃ t, exec (.cmp 0#8 1#8) State.reset = .next t :=
  ⟨⟨_, rfl, by decide⟩, ⟨_, rfl⟩⟩
theorem witness_OnlyJeqJneReadFlagBitZero :
    (∃ t, exec (.cmp 0#8 7#8) State.reset = .next t ∧ (Instr.cmp 0#8 7#8).op ∉ [Op.jeq, .jne]) ∧
      ∃ t, exec (.jeq 0#8) State.reset = .next t ∧ (0xFE#8 : Byte).getLsbD 0 = State.reset.fl.getLsbD 0 :=
  ⟨⟨_, rfl, by decide⟩, ⟨_, rfl, by decide⟩⟩
theorem witness_OnlyPrnAppendsOutput : ∃ t, exec (.prn 7#8) State.reset = .next t ∧ t.out = [244#8] := ⟨_, rfl, by decide⟩
theorem witness_AluChangesOnlyWhatItNames :
    Op.inc ∈ [Op.add, .sub, .mul, .div, .mod, .inc, .dec, .cmp] ∧
      (∃ t, exec (.inc 7#8) State.reset = .next t ∧ t.reg 7 ≠ State.reset.reg 7) ∧
      ∃ t, exec (.cmp 0#8 1#8) State.reset = .next t ∧ t.fl.getLsbD 0 ≠ State.reset.fl.getLsbD 0 :=
  ⟨by decide, ⟨_, rfl, by decide⟩, ⟨_, rfl, by decide⟩⟩
theorem witness_PshPushesRegister :
    (State.reset.setReg 7 1#8).sp.toNat ≠ 0 ∧ (State.reset.setReg 7 255#8).sp.toNat ≠ 0 ∧ (State.reset.setReg 7 0#8).sp.toNat = 0 := by
  decide
theorem witness_PopPopsRegister :
    (State.reset.setReg 7 243#8).sp.toNat < 244 ∧ (State.reset.setReg 7 0#8).sp.toNat < 244 ∧ 244 ≤ State.reset.sp.toNat := by decide
theorem witness_CallPushesReturnAddress :
    (State.reset.sp.toNat ≠ 0 ∧ (engineAt 253 []).pc.toNat + 2 ≤ 255) ∧ (State.reset.setReg 7 0#8).sp.toNat = 0 ∧
      ((engineAt 254 []).sp.toNat ≠ 0 ∧ 255 < (engineAt 254 []).pc.toNat + 2) := by decide
theorem witness_RetPopsPc : (State.reset.setReg 7 243#8).sp.toNat < 244 ∧ 244 ≤ State.reset.sp.toNat := by decide
theorem witness_JeqJneClauses :
    ({ State.reset with fl := 0x01#8 } : State).fl.getLsbD 0 = true ∧ State.reset.fl.getLsbD 0 = false := by decide
theorem witness_DivDivides_ModTakesRemainder : State.reset.reg 7 ≠ 0#8 ∧ (State.reset.setReg 1 1#8).reg 1 ≠ 0#8 := by decide
theorem witness_DivModByZeroFault : State.reset.reg 0 = 0#8 := by decide
theorem witness_CmpSetsEqualFlag :
    (∃ t, exec (.cmp 0#8 1#8) State.reset = .next t ∧ t.fl.getLsbD 0 = true) ∧
      ∃ t, exec (.cmp 0#8 7#8) State.reset = .next t ∧ t.fl.getLsbD 0 = false := ⟨⟨_, rfl, by decide⟩, ⟨_, rfl, by decide⟩⟩
theorem witness_DivModReconstructsDividend : (State.reset.setReg 1 255#8).reg 1 ≠ 0#8 := by decide
theorem witness_PshThenPopRestoresRegisters :
    (1 ≤ State.reset.sp.toNat ∧ State.reset.sp.toNat ≤ 244) ∧
      (1 ≤ (State.reset.setReg 7 1#8).sp.toNat ∧ (State.reset.setReg 7 1#8).sp.toNat ≤ 244) := by decide
theorem witness_CallThenRetReturns :
    1 ≤ (engineAt 253 []).sp.toNat ∧ (engineAt 253 []).sp.toNat ≤ 244 ∧ (engineAt 253 []).pc.toNat + 2 ≤ 255 ∧
      ∃ t, exec (.call 0#8) (engineAt 253 []) = .next t ∧ t.sp = t.sp ∧ t.mem.read t.sp.toNat = t.mem.read t.sp.toNat :=
  ⟨by decide, by decide, by decide, _, rfl, rfl, rfl⟩
theorem witness_CmpThenBranch : State.reset.reg 0 = State.reset.reg 1 ∧ State.reset.reg 0 ≠ State.reset.reg 7 := by decide

end Sys2Proof.Tests
end

section
/-! Proofs of the family `10_state.md`: the reset register file (R13), the readers of FL (R18) and the output stream (R22). -/
namespace Sys2Proof.Machine

/-! ## The reset register file -/

/-- 10_state.md R13 as one equation. -/
theorem State.reg_reset (r : Reg) : State.reset.reg r = if r = 7 then 244#8 else 0#8 := by
  revert r
  decide

/-- Settles O7, by the equation of the reset register file. -/
theorem resetRegisterFile : Obligations.ResetRegisterFile := by
  refine ⟨fun r hr => ?_, State.reg_reset 7⟩
  have hne : r ≠ 7 := by
    rintro rfl
    exact absurd hr (by decide)
  rw [State.reg_reset, if_neg hne]

/-! ## The output stream -/

/-- A completed instruction leaves the output as it is, or is a PRN that appends its register (10_state.md R22). -/
theorem Completed.out {i : Instr} {s t : State} (h : Completed i s t) :
    t.out = s.out ∨ ∃ r : Reg, i = .prn r.byte ∧ t.out = s.out ++ [s.reg r] := by
  cases i with
  | prn =>
    obtain ⟨q, rfl, rfl⟩ := h
    exact .inr ⟨q, rfl, rfl⟩
  | hlt =>
    cases h
    exact .inl rfl
  | ldi | jmp | inc | dec =>
    obtain ⟨_, -, rfl⟩ := h
    exact .inl rfl
  | jeq | jne =>
    obtain ⟨_, -, rfl⟩ := h
    left
    split <;> rfl
  | psh | pop =>
    obtain ⟨_, -, -, rfl⟩ := h
    exact .inl rfl
  | call =>
    obtain ⟨_, -, -, -, rfl⟩ := h
    exact .inl rfl
  | ret =>
    obtain ⟨-, rfl⟩ := h
    exact .inl rfl
  | add | sub | mul | cmp =>
    obtain ⟨_, _, -, -, rfl⟩ := h
    exact .inl rfl
  | div | mod =>
    obtain ⟨_, _, -, -, -, rfl⟩ := h
    exact .inl rfl

/-- Settles O35: a completed instruction by `Completed.out`, and a fault emits nothing. -/
theorem onlyPrnAppendsOutput : Obligations.OnlyPrnAppendsOutput := by
  refine ⟨rfl, fun i s t h => ?_⟩
  rcases exec_next h with hc | ⟨f, -, rfl⟩
  · exact hc.out
  · exact .inl (takeFault_out s f)

/-! ## Who reads the flag register

Two executions that start from states differing in FL alone run side by side: every check decides alike in both, so
their effects are the same fault or states that differ in FL alone. -/

/-- `u` is `t`, but for its flag register. -/
def SameButFl (t u : State) : Prop := { u with fl := t.fl } = t

/-- The same fault, or effects that differ in the flag register alone. -/
def SameEffectButFl : Except FaultRecord State → Except FaultRecord State → Prop
  | .ok t, .ok u => SameButFl t u
  | .error f, .error g => f = g
  | _, _ => False

/-- A check both executions make alike: they fault alike or go on side by side. -/
theorem SameEffectButFl.bind {α : Type} (check : Except FaultRecord α) {body body' : α → Except FaultRecord State}
    (h : ∀ a, SameEffectButFl (body a) (body' a)) : SameEffectButFl (check >>= body) (check >>= body') := by
  cases check with
  | ok a => exact h a
  | error f => exact rfl

theorem SameEffectButFl.ite (c : Prop) [Decidable c] {e₁ e₂ e₁' e₂' : Except FaultRecord State}
    (h₁ : SameEffectButFl e₁ e₁') (h₂ : SameEffectButFl e₂ e₂') :
    SameEffectButFl (if c then e₁ else e₂) (if c then e₁' else e₂') := by
  split
  · exact h₁
  · exact h₂

/-- Effects that differ in FL alone, with the same continuation done after both of them. -/
theorem SameEffectButFl.andThen {effect effect' : Except FaultRecord State} {body : State → Except FaultRecord State}
    (he : SameEffectButFl effect effect')
    (h : ∀ (t : State) (fl : Byte), SameEffectButFl (body t) (body { t with fl := fl })) :
    SameEffectButFl (effect >>= body) (effect' >>= body) := by
  match effect, effect', he with
  | .ok t, .ok u, he =>
    have hu : { t with fl := u.fl } = u := by rw [← he]
    exact hu ▸ h t u.fl
  | .error _, .error _, rfl => exact rfl

/-- The ends of two steps whose effects differ in FL alone. -/
theorem settle_sameButFl {s t : State} {fl : Byte} {effect effect' : Except FaultRecord State}
    (h : settle s effect = .next t) (he : SameEffectButFl effect effect') :
    ∃ u, settle { s with fl := fl } effect' = .next u ∧ SameButFl t u := by
  match effect, effect', he with
  | .ok _, .ok u, he =>
    cases h
    exact ⟨u, rfl, he⟩
  | .error f, .error _, rfl =>
    cases h
    exact ⟨takeFault { s with fl := fl } f, rfl, rfl⟩

/-- A push of a value that does not depend on FL. -/
theorem push_sameButFl (s : State) (fl : Byte) {value : State → Byte}
    (hvalue : ∀ u : State, value { u with fl := fl } = value u) :
    SameEffectButFl (push s value) (push { s with fl := fl } value) := by
  rw [push_eq, push_eq]
  refine .ite (s.sp.toNat = 0) rfl ?_
  exact congrArg (fun b => { s.setSp (s.sp - 1#8) with mem := s.mem.write (s.sp - 1#8).toNat b })
    (hvalue (s.setSp (s.sp - 1#8)))

/-- A pop into a destination that is stored beside FL. -/
theorem pop_sameButFl (s : State) (fl : Byte) {store : State → Byte → State}
    (hstore : ∀ v : Byte, store { s with fl := fl } v = { store s v with fl := fl }) :
    SameEffectButFl (pop s store) (pop { s with fl := fl } store) := by
  rw [pop_eq, pop_eq]
  refine .ite (244 ≤ s.sp.toNat) rfl ?_
  rw [hstore]
  exact rfl

section
variable {s t : State} {fl : Byte}

theorem binaryAlu_sameButFl {alu : Byte → Byte → Byte} {a b : Byte} (h : binaryAlu alu a b s = .next t) :
    ∃ u, binaryAlu alu a b { s with fl := fl } = .next u ∧ SameButFl t u :=
  settle_sameButFl h (.bind (regOperands a b) fun _ => rfl)

theorem dividingAlu_sameButFl {alu : Byte → Byte → Byte} {a b : Byte} (h : dividingAlu alu a b s = .next t) :
    ∃ u, dividingAlu alu a b { s with fl := fl } = .next u ∧ SameButFl t u :=
  settle_sameButFl h (.bind (regOperands a b) fun q => .ite ((s.reg q.2).toNat = 0) rfl rfl)

theorem unaryAlu_sameButFl {alu : Byte → Byte} {a : Byte} (h : unaryAlu alu a s = .next t) :
    ∃ u, unaryAlu alu a { s with fl := fl } = .next u ∧ SameButFl t u :=
  settle_sameButFl h (.bind (regOperand a) fun _ => rfl)

/-- A jump reads FL only in its condition `taken`. -/
theorem jumpIf_sameButFl {taken : Bool} {r : Byte} (h : jumpIf taken r s = .next t) :
    ∃ u, jumpIf taken r { s with fl := fl } = .next u ∧ SameButFl t u :=
  settle_sameButFl h (.bind (regOperand r) fun _ => by cases taken <;> exact rfl)

/-- The execution of an instruction from states that differ in FL, in bit 0 too unless it is a conditional jump. -/
theorem exec_sameButFl {i : Instr} (h : exec i s = .next t)
    (hread : i.op ∉ [Op.jeq, .jne] ∨ State.equalFlag { s with fl := fl } = s.equalFlag) :
    ∃ u, exec i { s with fl := fl } = .next u ∧ SameButFl t u := by
  cases i with
  | ldi r => exact settle_sameButFl h (.bind (regOperand r) fun _ => rfl)
  | prn r => exact settle_sameButFl h (.bind (regOperand r) fun _ => rfl)
  | cmp a b => exact settle_sameButFl h (.bind (regOperands a b) fun _ => rfl)
  | hlt =>
    cases h
    exact ⟨{ s with status := .halted, fl := fl }, rfl, rfl⟩
  | psh r =>
    refine settle_sameButFl h (.bind (regOperand r) fun q => ?_)
    exact (push_sameButFl s fl fun _ => rfl).andThen fun _ _ => rfl
  | pop r =>
    refine settle_sameButFl h (.bind (regOperand r) fun q => ?_)
    exact (pop_sameButFl s fl fun _ => rfl).andThen fun _ _ => rfl
  | call r =>
    refine settle_sameButFl h (.bind (regOperand r) fun q => .bind (checkPush s) fun _ =>
      .bind (returnAddress s) fun back => ?_)
    exact (push_sameButFl s fl fun _ => rfl).andThen fun _ _ => rfl
  | ret => exact settle_sameButFl h (pop_sameButFl s fl fun _ => rfl)
  | jmp => exact jumpIf_sameButFl h
  | jeq | jne =>
    have hbit : State.equalFlag { s with fl := fl } = s.equalFlag := hread.resolve_left (by simp [Instr.op])
    simp only [exec, execJeq, execJne, hbit] at h ⊢
    exact jumpIf_sameButFl h
  | add | sub | mul => exact binaryAlu_sameButFl h
  | div | mod => exact dividingAlu_sameButFl h
  | inc | dec => exact unaryAlu_sameButFl h

end

/-- Settles O34, by running the two executions side by side. -/
theorem onlyJeqJneReadFlagBitZero : Obligations.OnlyJeqJneReadFlagBitZero :=
  fun _ _ _ _ h hread => exec_sameButFl h hread

end Sys2Proof.Machine
end

section
/-! Proofs of the family `30_encoding.md`: an instruction's bytes against the opcode table (R44). -/
namespace Sys2Proof

/-- Every operation has its row in the opcode table: the encoder's opcode byte, operand count and format. -/
theorem Op.row_mem_opcodeTable (op : Op) : ⟨op.opcode, op, op.format.operandBytes, op.format⟩ ∈ opcodeTable :=
  (lookupOpcode_some (lookupOpcode_opcode op)).1

/-- No format has more than two operand bytes. -/
theorem Format.operandBytes_le_two (f : Format) : f.operandBytes ≤ 2 := by
  cases f <;> decide

/-- An instruction carries as many operand bytes as its operation's format has (30_encoding.md R44, R45). -/
@[simp] theorem Instr.length_operands (i : Instr) : i.operands.length = i.op.format.operandBytes := by
  cases i <;> rfl

/-- The length of an encoding is one more than the format's operand count. -/
theorem length_encode (i : Instr) : (encode i).length = 1 + i.op.format.operandBytes := by
  simp [encode, Nat.add_comm]

/-- Settles O1: the row is the operation's own, and its operand count is that of the operation's format. -/
theorem lengthIsOnePlusArity : Obligations.LengthIsOnePlusArity := fun i =>
  ⟨_, i.op.row_mem_opcodeTable, rfl, rfl, i.length_operands, i.op.format.operandBytes_le_two, length_encode i⟩

end Sys2Proof
end

section
/-! Proofs of the family `40_execution_engine.md`: a halted or faulted engine neither steps nor runs (R66). -/
namespace Sys2Proof.Machine

/-- Only a running engine has a next state. -/
theorem stepWith_ne_next {w : Wiring} {s : State} (h : s.status ≠ .running) (t : State) : stepWith w s ≠ .next t :=
  fun hstep => h (stepWith_next hstep).1

/-- A run of an engine that is not running is over at once, with the state as it was. -/
theorem run_of_not_running (w : Wiring) (fuel : Nat) {s : State} (h : s.status ≠ .running) :
    run w fuel s = .ended s := by
  cases hs : s.status with
  | running => exact absurd hs h
  | halted | faulted => rw [run.eq_def, hs]

/-- Settles O19: an ended engine is not running, so it has no next state and its run is over. -/
theorem noStepAfterTheEnd : Obligations.NoStepAfterTheEnd := by
  intro w s hend
  have hs : s.status ≠ .running := by
    rcases hend with h | h <;> simp [h]
  exact ⟨stepWith_ne_next hs, fun fuel => run_of_not_running w fuel hs⟩

end Sys2Proof.Machine
end

section
/-! Proofs of the family `60_exceptions.md`: `UnsupportedAluOpFault` is unreachable (R101). -/
namespace Sys2Proof.Machine

/-- A completed instruction leaves the fault record as it was. -/
theorem Completed.fault {i : Instr} {s t : State} (h : Completed i s t) : t.fault = s.fault := by
  cases i with
  | hlt =>
    cases h
    rfl
  | ldi | prn | jmp | inc | dec =>
    obtain ⟨_, -, rfl⟩ := h
    rfl
  | jeq | jne =>
    obtain ⟨_, -, rfl⟩ := h
    split <;> rfl
  | psh | pop =>
    obtain ⟨_, -, -, rfl⟩ := h
    rfl
  | call =>
    obtain ⟨_, -, -, -, rfl⟩ := h
    rfl
  | ret =>
    obtain ⟨-, rfl⟩ := h
    rfl
  | add | sub | mul | cmp =>
    obtain ⟨_, _, -, -, rfl⟩ := h
    rfl
  | div | mod =>
    obtain ⟨_, _, -, -, -, rfl⟩ := h
    rfl

/-- The kinds of an instruction's own checks (60_exceptions.md R94). -/
theorem OwnFault.kind_mem {i : Instr} {s : State} {f : FaultRecord} (h : OwnFault i s f) :
    f.kind ∈ [FaultKind.stackOverflow, .stackUnderflow, .memoryRange, .divideByZero] := by
  cases i with
  | psh | pop | ret =>
    obtain ⟨-, rfl⟩ := h
    simp
  | call =>
    obtain ⟨-, rfl⟩ | ⟨-, -, rfl⟩ := h <;> simp
  | div | mod =>
    obtain ⟨_, -, -, rfl⟩ := h
    simp
  | ldi | prn | hlt | jmp | jeq | jne | add | sub | mul | inc | dec | cmp => exact h.elim

/-- A register operand that names no register raises a register index fault. -/
theorem OperandFault.kind_eq {i : Instr} {f : FaultRecord} (h : OperandFault i f) : f.kind = .registerIndex := by
  obtain ⟨_, -, -, -, rfl⟩ := h
  rfl

/-- The kinds of the fetch faults (40_execution_engine.md R62 points 1 to 3). -/
theorem fetchInstr_error_kind_mem {w : Wiring} {s : State} {f : FaultRecord} (h : fetchInstr w s = .error f) :
    f.kind ∈ [FaultKind.unknownOpcode, .memoryRange] := by
  unfold fetchInstr at h
  split at h
  · cases h
  · next e _ =>
    cases h
    cases e <;> simp [fetchFault]

/-- A step leaves the fault record as it was, or it is the entry of a fetch fault, of a failed check of the
instruction's own, or of a register operand that names no register, the instruction being the fetched one. -/
theorem stepWith_fault {w : Wiring} {s t : State} (h : stepWith w s = .next t) :
    t.fault = s.fault ∨ ∃ f, t.fault = some f ∧
      (fetchInstr w s = .error f ∨ ∃ i, fetchInstr w s = .ok i ∧ (OwnFault i s f ∨ OperandFault i f)) := by
  obtain ⟨-, ⟨f, hfetch, rfl⟩ | ⟨i, hfetch, hexec⟩⟩ := stepWith_next h
  · exact .inr ⟨f, rfl, .inl hfetch⟩
  · obtain hdone | ⟨f, hcause, rfl⟩ := exec_next hexec
    · exact .inl hdone.fault
    · exact .inr ⟨f, rfl, .inr ⟨i, hfetch, hcause⟩⟩

/-- Settles O23: a record that a step sets has a cause, and no cause is of this kind. -/
theorem unsupportedAluOpIsUnreachable : Obligations.UnsupportedAluOpIsUnreachable := by
  intro w s t f hstep hf hnew hkind
  obtain ⟨g, hg, hcause⟩ := (stepWith_fault hstep).resolve_left hnew
  obtain rfl : f = g := Option.some.inj (hf.symm.trans hg)
  obtain hfetch | ⟨i, -, hown | hoperand⟩ := hcause
  · simpa [hkind] using fetchInstr_error_kind_mem hfetch
  · simpa [hkind] using hown.kind_mem
  · simpa [hkind] using hoperand.kind_eq

end Sys2Proof.Machine
end

section
/-! Proofs of the family `other`, decoding: the decoder inverts the encoder (30_encoding.md sections 1, 2 and 4). -/
namespace Sys2Proof

/-! ## The opcode lookup -/

/-- The row of an operation in the opcode table. -/
def Op.row (op : Op) : OpcodeRow := ⟨op.opcode, op, op.format.operandBytes, op.format⟩

/-- Every row of the table is the row of its operation. -/
theorem OpcodeRow.eq_row_of_mem {row : OpcodeRow} (h : row ∈ opcodeTable) : row = row.op.row := by
  obtain ⟨hopcode, hcount, hformat⟩ := opcodeTable_rows row h
  cases row
  simp only [Op.row, OpcodeRow.mk.injEq, true_and]
  exact ⟨hopcode, hcount, hformat⟩

/-- The lookup of an operation's opcode finds its row where the configuration executes it. -/
theorem lookupOpcode_opcode_of_wired {w : Wiring} {op : Op} (h : op.wiredIn w = true) :
    lookupOpcode w op.opcode = some op.row := by
  cases w with
  | complete => exact lookupOpcode_opcode op
  | reference => revert h; cases op <;> decide

/-- What a lookup finds: the row of an operation that the configuration executes, under that operation's opcode. -/
theorem lookupOpcode_eq_some_iff {w : Wiring} {b : Byte} {row : OpcodeRow} :
    lookupOpcode w b = some row ↔ ∃ op : Op, op.wiredIn w = true ∧ b = op.opcode ∧ row = op.row := by
  constructor
  · intro h
    obtain ⟨hmem, hwired, hopcode⟩ := lookupOpcode_some h
    exact ⟨row.op, hwired, hopcode.symm.trans (opcodeTable_rows row hmem).1, OpcodeRow.eq_row_of_mem hmem⟩
  · rintro ⟨op, hwired, rfl, rfl⟩
    exact lookupOpcode_opcode_of_wired hwired

theorem operandBytes_le_two_of_lookup {w : Wiring} {b : Byte} {row : OpcodeRow} (h : lookupOpcode w b = some row) :
    row.operandBytes ≤ 2 := by
  obtain ⟨op, -, -, rfl⟩ := lookupOpcode_eq_some_iff.1 h
  exact op.format.operandBytes_le_two

/-! ## The unwired operations (30_encoding.md R51) -/

/-- The six operations of R51 are those the reference wiring leaves unwired. -/
theorem Op.unwired_iff (op : Op) :
    op.wiredIn .reference = false ↔ op ∈ [Op.sub, .div, .mod, .inc, .dec, .jne] := by
  cases op <;> decide

/-- Two operations with one opcode are one operation. -/
theorem Op.opcode_injective : Function.Injective Op.opcode := by
  intro op op' h
  have hrow := lookupOpcode_opcode op
  rw [h, lookupOpcode_opcode op', Option.some.injEq, OpcodeRow.mk.injEq] at hrow
  exact hrow.2.1.symm

theorem lookupOpcode_reference_unwired {op : Op} (h : op ∈ [Op.sub, .div, .mod, .inc, .dec, .jne]) :
    lookupOpcode .reference op.opcode = none := by
  rw [Option.eq_none_iff_forall_ne_some]
  intro row hrow
  obtain ⟨op', hwired, hopcode, -⟩ := lookupOpcode_eq_some_iff.1 hrow
  rw [← Op.opcode_injective hopcode, op.unwired_iff.2 h] at hwired
  cases hwired

theorem lookupOpcode_reference_of_not_unwired {b : Byte}
    (h : ∀ op ∈ [Op.sub, .div, .mod, .inc, .dec, .jne], b ≠ op.opcode) :
    lookupOpcode .reference b = lookupOpcode .complete b := by
  refine Option.ext fun row => ?_
  rw [lookupOpcode_eq_some_iff, lookupOpcode_eq_some_iff]
  refine exists_congr fun op => and_congr_left fun ⟨hopcode, _⟩ => ⟨fun _ => rfl, fun _ => ?_⟩
  by_contra hunwired
  exact h op (op.unwired_iff.1 (by simpa using hunwired)) hopcode

/-! ## Decode and encode -/

/-- The instruction read from operand bytes has the operation it was read for. -/
@[simp] theorem Op.op_instr (op : Op) (x y : Byte) : (op.instr x y).op = op := by
  cases op <;> rfl

/-- The instruction read from operand bytes carries as many of them as its format has. -/
theorem Op.operands_instr (op : Op) {bytes : List Byte} (h : op.format.operandBytes ≤ bytes.length) :
    (op.instr (bytes.getD 0 0#8) (bytes.getD 1 0#8)).operands = bytes.take op.format.operandBytes := by
  cases op with
  | hlt | ret => rfl
  | prn | psh | pop | call | jmp | jeq | jne | inc | dec =>
    match bytes, h with
    | _ :: _, _ => rfl
  | ldi | add | sub | mul | div | mod | cmp =>
    match bytes, h with
    | _ :: _ :: _, _ => rfl

/-- An instruction is read back from its own operand bytes, whatever follows them. -/
theorem Instr.instr_operands_append (i : Instr) (rest : List Byte) :
    i.op.instr ((i.operands ++ rest).getD 0 0#8) ((i.operands ++ rest).getD 1 0#8) = i := by
  cases i <;> rfl

/-- The decoder on the opcode of an operation that the configuration executes. -/
theorem decode_opcode {w : Wiring} {op : Op} (h : op.wiredIn w = true) (rest : List Byte) :
    decode w (op.opcode :: rest) =
      if rest.length < op.format.operandBytes then .error (.missingByte (rest.length + 1))
      else .ok (op.instr (rest.getD 0 0#8) (rest.getD 1 0#8), rest.drop op.format.operandBytes) :=
  decode_known rest (lookupOpcode_opcode_of_wired h)

theorem decode_encode_append {w : Wiring} {i : Instr} (h : i.op.wiredIn w = true) (rest : List Byte) :
    decode w (encode i ++ rest) = .ok (i, rest) := by
  have hlen : ¬ (i.operands ++ rest).length < i.op.format.operandBytes := by simp
  rw [encode, List.cons_append, decode_opcode h, if_neg hlen, i.instr_operands_append,
    ← i.length_operands, List.drop_left]

theorem eq_encode_append_of_decode {w : Wiring} {bytes rest : List Byte} {i : Instr}
    (h : decode w bytes = .ok (i, rest)) : i.op.wiredIn w = true ∧ bytes = encode i ++ rest := by
  cases bytes with
  | nil => cases h
  | cons opcode tail =>
    cases hlookup : lookupOpcode w opcode with
    | none =>
      rw [decode_unknown tail hlookup] at h
      cases h
    | some row =>
      obtain ⟨op, hwired, rfl, -⟩ := lookupOpcode_eq_some_iff.1 hlookup
      rw [decode_opcode hwired] at h
      split at h
      · cases h
      next hlen =>
        cases h
        refine ⟨by simpa using hwired, ?_⟩
        rw [encode, Op.op_instr, Op.operands_instr op (Nat.le_of_not_lt hlen), List.cons_append,
          List.take_append_drop]

/-- Settles O2, by one lemma for each direction. -/
theorem decodeExactlyInvertsEncode : Obligations.DecodeExactlyInvertsEncode :=
  fun _ _ _ _ => ⟨eq_encode_append_of_decode, fun ⟨hwired, hbytes⟩ => hbytes ▸ decode_encode_append hwired _⟩

/-- Settles O3: the examples of the binary column. -/
theorem specWordsDecode : Obligations.SpecWordsDecode := by
  unfold Obligations.SpecWordsDecode
  decide

/-- Settles O4, row by row of the closed table. -/
theorem opcodeBitPatterns : Obligations.OpcodeBitPatterns := by
  unfold Obligations.OpcodeBitPatterns
  decide

end Sys2Proof
end

section
/-! Proofs of the family `other`, the fetch: what stands at `pc`, and the fetch faults in their order
(40_execution_engine.md R58-R62). -/
namespace Sys2Proof.Machine

/-! ## The code window -/

theorem codeWindow_eq_map_range (s : State) :
    codeWindow s = (List.range (min 3 (256 - s.pc.toNat))).map (fun k => s.mem.read (s.pc.toNat + k)) := by
  obtain h | h | h | h : 256 ≤ s.pc.toNat ∨ s.pc.toNat = 255 ∨ s.pc.toNat = 254 ∨ s.pc.toNat ≤ 253 := by omega
  · rw [codeWindow_none h, Nat.sub_eq_zero_of_le h]
    rfl
  · rw [codeWindow_one h, h]
    rfl
  · rw [codeWindow_two h, h]
    rfl
  · rw [codeWindow_three h, Nat.min_eq_left (by omega)]
    rfl

/-- An engine whose `pc` names a cell fetches that cell first. -/
theorem codeWindow_eq_cons {s : State} (h : s.pc.toNat ≤ 255) :
    ∃ tail, codeWindow s = s.mem.read s.pc.toNat :: tail ∧ tail.length = min 2 (255 - s.pc.toNat) := by
  have hn : min 3 (256 - s.pc.toNat) = min 2 (255 - s.pc.toNat) + 1 := by omega
  rw [codeWindow_eq_map_range, hn, List.range_succ_eq_map]
  exact ⟨_, rfl, by simp⟩

theorem codeWindow_getElem {s : State} {k : Nat} (h : k < (codeWindow s).length) :
    (codeWindow s)[k] = s.mem.read (s.pc.toNat + k) := by
  simp [codeWindow_eq_map_range]

theorem length_encode_bounds (i : Instr) : 1 ≤ (encode i).length ∧ (encode i).length ≤ 3 := by
  have := i.op.format.operandBytes_le_two
  rw [length_encode]
  omega

/-- An encoding stands at `pc` exactly when the code window begins with it. -/
theorem State.codeAt_encode_iff {s : State} {i : Instr} :
    s.codeAt (encode i) ↔ ∃ rest, codeWindow s = encode i ++ rest := by
  obtain ⟨hpos, hle⟩ := length_encode_bounds i
  have hwindow := codeWindow_length s
  constructor
  · rintro ⟨hin, hread⟩
    have htake : (codeWindow s).take (encode i).length = encode i := by
      refine List.ext_getElem (by rw [List.length_take]; omega) fun k _ hk => ?_
      rw [List.getElem_take, codeWindow_getElem, hread k hk]
    refine ⟨(codeWindow s).drop (encode i).length, ?_⟩
    conv_lhs => rw [← List.take_append_drop (encode i).length (codeWindow s), htake]
  · rintro ⟨rest, hrest⟩
    have hlen : (encode i).length ≤ (codeWindow s).length := by
      rw [hrest, List.length_append]
      exact Nat.le_add_right _ _
    refine ⟨by omega, fun k hk => ?_⟩
    rw [← codeWindow_getElem (hk.trans_le hlen), List.getElem_of_eq hrest, List.getElem_append_left hk]

/-! ## The fetched instruction -/

/-- The fetch answers an instruction exactly when the configuration executes it and its bytes stand at `pc`. -/
theorem fetchInstr_eq_ok_iff {w : Wiring} {s : State} {i : Instr} :
    fetchInstr w s = .ok i ↔ i.op.wiredIn w = true ∧ s.codeAt (encode i) := by
  rw [State.codeAt_encode_iff]
  constructor
  · intro h
    unfold fetchInstr at h
    split at h
    next j rest hdecode =>
      cases h
      obtain ⟨hwired, hwindow⟩ := eq_encode_append_of_decode hdecode
      exact ⟨hwired, rest, hwindow⟩
    · cases h
  · rintro ⟨hwired, rest, hwindow⟩
    rw [fetchInstr, hwindow, decode_encode_append hwired]

/-- A fetched instruction lies inside the memory (40_execution_engine.md R60). -/
theorem pc_add_length_le_of_fetchInstr {w : Wiring} {s : State} {i : Instr} (h : fetchInstr w s = .ok i) :
    s.pc.toNat + (encode i).length ≤ 256 :=
  (fetchInstr_eq_ok_iff.1 h).2.1

theorem stepWith_of_fetchInstr {w : Wiring} {s : State} {i : Instr} (hrun : s.status = .running)
    (h : fetchInstr w s = .ok i) : stepWith w s = exec i s := by
  rw [stepWith_running w hrun, h]

/-- Settles O16: the fetch finds the instruction whose encoding stands at `pc`. -/
theorem stepRunsDecodedInstruction : Obligations.StepRunsDecodedInstruction := by
  have hstep : ∀ (w : Wiring) (s : State) (i : Instr), s.status = .running → i.op.wiredIn w = true →
      s.codeAt (encode i) → stepWith w s = exec i s := fun _ _ _ hrun hwired hcode =>
    stepWith_of_fetchInstr hrun (fetchInstr_eq_ok_iff.2 ⟨hwired, hcode⟩)
  exact ⟨hstep, fun s i hrun => hstep .complete s i hrun rfl⟩

/-! ## The fetch faults -/

theorem takeFault_eq_afterFault (s : State) (kind : FaultKind) (info : Nat) :
    takeFault s ⟨kind, info⟩ = afterFault s kind info := rfl

theorem stepWith_of_fetchFault {w : Wiring} {s : State} {kind : FaultKind} {info : Nat} (hrun : s.status = .running)
    (h : fetchInstr w s = .error ⟨kind, info⟩) : stepWith w s = .next (afterFault s kind info) := by
  rw [stepWith_running w hrun, h]
  rfl

/-- R62 point 1: `pc` names no cell. -/
theorem fetchInstr_past_memory (w : Wiring) {s : State} (h : 256 ≤ s.pc.toNat) :
    fetchInstr w s = .error ⟨.memoryRange, s.pc.toNat⟩ := by
  rw [fetchInstr, codeWindow_none h, decode_nil]
  rfl

/-- R62 point 2: the opcode is none of the configuration, whatever follows it. -/
theorem fetchInstr_unknown {w : Wiring} {s : State} (h : s.pc.toNat ≤ 255)
    (hlookup : lookupOpcode w (s.mem.read s.pc.toNat) = none) :
    fetchInstr w s = .error ⟨.unknownOpcode, (s.mem.read s.pc.toNat).toNat⟩ := by
  obtain ⟨tail, hwindow, -⟩ := codeWindow_eq_cons h
  rw [fetchInstr, hwindow, decode_unknown tail hlookup]
  rfl

/-- R62 point 3: operand byte `k` would stand at address 256. -/
theorem fetchInstr_missing_operand {w : Wiring} {s : State} {row : OpcodeRow} {k : Nat}
    (hlookup : lookupOpcode w (s.mem.read s.pc.toNat) = some row) (hk : 1 ≤ k) (hrow : k ≤ row.operandBytes)
    (hpc : s.pc.toNat + k = 256) : fetchInstr w s = .error ⟨.memoryRange, 256⟩ := by
  have htwo := operandBytes_le_two_of_lookup hlookup
  obtain ⟨tail, hwindow, hlen⟩ := codeWindow_eq_cons (s := s) (by omega)
  have hshort : tail.length < row.operandBytes := by omega
  have haddr : s.pc.toNat + (tail.length + 1) = 256 := by omega
  rw [fetchInstr, hwindow, decode_known tail hlookup, if_pos hshort]
  simp only [fetchFault, haddr]

/-- Settles O24, by the three fetch faults. -/
theorem fetchFaultsInOrder : Obligations.FetchFaultsInOrder := fun w _ hrun =>
  ⟨fun h => stepWith_of_fetchFault hrun (fetchInstr_past_memory w h),
    fun h hlookup => stepWith_of_fetchFault hrun (fetchInstr_unknown h hlookup),
    fun _ _ hlookup hk hrow hpc => stepWith_of_fetchFault hrun (fetchInstr_missing_operand hlookup hk hrow hpc)⟩

/-! ## Unlisted and unwired opcodes -/

theorem listedOpcodes_eq_table : listedOpcodes = opcodeTable.map (fun row => row.opcode) := by
  decide

/-- A byte that is not listed is no opcode of either configuration. -/
theorem lookupOpcode_unlisted (w : Wiring) {b : Byte} (h : b ∉ listedOpcodes) : lookupOpcode w b = none := by
  rw [Option.eq_none_iff_forall_ne_some]
  intro row hrow
  obtain ⟨hmem, -, hopcode⟩ := lookupOpcode_some hrow
  rw [listedOpcodes_eq_table] at h
  exact h (List.mem_map.2 ⟨row, hmem, hopcode⟩)

/-- Settles O5: an unlisted byte is found in no table, and the engine after the fault is not running. -/
theorem unlistedOpcodesFault : Obligations.UnlistedOpcodesFault := by
  refine ⟨by decide +kernel, by decide, fun w s hrun hpc hbyte => ⟨?_, ?_⟩⟩
  · exact stepWith_of_fetchFault hrun (fetchInstr_unknown hpc (lookupOpcode_unlisted w hbyte))
  · exact stepWith_ne_next nofun

/-- The fetch depends on the wiring only through the lookup of the byte at `pc`. -/
theorem fetchInstr_congr {w w' : Wiring} {s : State}
    (h : lookupOpcode w (s.mem.read s.pc.toNat) = lookupOpcode w' (s.mem.read s.pc.toNat)) :
    fetchInstr w s = fetchInstr w' s := by
  obtain hpc | hpc : 256 ≤ s.pc.toNat ∨ s.pc.toNat ≤ 255 := by omega
  · rw [fetchInstr_past_memory w hpc, fetchInstr_past_memory w' hpc]
  · obtain ⟨tail, hwindow, -⟩ := codeWindow_eq_cons hpc
    simp only [fetchInstr, hwindow, decode, h]

/-- Settles O6: the six opcodes are found in no row of the reference table, every other byte in the same row of both. -/
theorem referenceWiringUnwiresSix : Obligations.ReferenceWiringUnwiresSix := by
  refine ⟨fun op s hop hrun hpc hbyte => ?_, fun s hother => ?_⟩
  · have hlookup : lookupOpcode .reference (s.mem.read s.pc.toNat) = none := by
      rw [hbyte, lookupOpcode_reference_unwired hop]
    rw [← hbyte]
    exact stepWith_of_fetchFault hrun (fetchInstr_unknown hpc hlookup)
  · have hfetch := fetchInstr_congr (lookupOpcode_reference_of_not_unwired hother)
    simp only [stepWith, hfetch]

end Sys2Proof.Machine
end

section
/-! Proofs of the family `other`, execution: the inversion `exec_next` read the other way, and what the register
operands decide before anything else (40_execution_engine.md R62 point 4). -/
namespace Sys2Proof.Machine

/-! ## The register operands -/

@[simp] theorem namesRegister_byte (r : Reg) : namesRegister r.byte = true := by
  simp [namesRegister]

theorem namesRegister_eq_true_iff {b : Byte} : namesRegister b = true ↔ ∃ r : Reg, b = r.byte := by
  constructor
  · intro h
    have hlt : b.toNat < 8 := of_decide_eq_true h
    exact (byte_register_or_above b).resolve_right (Nat.not_le.2 hlt)
  · rintro ⟨r, rfl⟩
    exact namesRegister_byte r

/-- The search for an operand above 7 in a list of one. -/
theorem find?_above_singleton {b c : Byte} (h : [b].find? (fun d => decide (7 < d.toNat)) = some c) :
    7 < b.toNat ∧ b = c := by
  simpa [List.find?_singleton] using h

section
variable (s : State)

theorem settle_regOperand (r : Reg) (body : Reg → Except FaultRecord State) :
    settle s (regOperand r.byte >>= body) = settle s (body r) := by
  rw [regOperand_byte]
  rfl

theorem settle_regOperands (a b : Reg) (body : Reg × Reg → Except FaultRecord State) :
    settle s (regOperands a.byte b.byte >>= body) = settle s (body (a, b)) := by
  rw [regOperands_bytes]
  rfl

/-- A register operand above 7 is the fault, whatever the instruction would do next. -/
theorem settle_regOperand_above {b c : Byte} (body : Reg → Except FaultRecord State)
    (h : [b].find? (fun d => decide (7 < d.toNat)) = some c) :
    settle s (regOperand b >>= body) = .next (afterFault s .registerIndex c.toNat) := by
  obtain ⟨hb, rfl⟩ := find?_above_singleton h
  rw [regOperand_above hb]
  rfl

/-- Of two register operands the first above 7 is the fault, whatever the instruction would do next. -/
theorem settle_regOperands_above {a b c : Byte} (body : Reg × Reg → Except FaultRecord State)
    (h : [a, b].find? (fun d => decide (7 < d.toNat)) = some c) :
    settle s (regOperands a b >>= body) = .next (afterFault s .registerIndex c.toNat) := by
  obtain ⟨p, rfl⟩ | ha := byte_register_or_above a
  · have hp : ¬ 7 < p.byte.toNat := by
      rw [Reg.byte_toNat]
      exact Nat.not_lt.2 (Nat.le_of_lt_succ p.isLt)
    have hrest : [b].find? (fun d => decide (7 < d.toNat)) = some c := by
      simpa only [List.find?_cons, hp, decide_false] using h
    obtain ⟨hb, rfl⟩ := find?_above_singleton hrest
    rw [regOperands_second_above p hb]
    rfl
  · have hfirst : a = c := by
      have ha' : 7 < a.toNat := ha
      simpa only [List.find?_cons, ha', decide_true, Option.some.injEq] using h
    rw [regOperands_first_above b ha, hfirst]
    rfl

end

/-- Settles O25: every instruction with register operands begins with their check. -/
theorem registerOperandFaultsFirst : Obligations.RegisterOperandFaultsFirst := by
  intro i s b h
  cases i with
  | hlt | ret => cases h
  | ldi | prn | psh | pop | call | jmp | jeq | jne | inc | dec => exact settle_regOperand_above s _ h
  | add | sub | mul | div | mod | cmp => exact settle_regOperands_above s _ h

/-! ## The forward reading of `exec_next` -/

/-- An instruction whose operands and own check are good completes. -/
theorem exec_of_completed {i : Instr} {s t : State} (h : Completed i s t) : exec i s = .next t := by
  cases i with
  | hlt =>
    cases h
    rfl
  | ldi | prn | jmp | jeq | jne | inc | dec =>
    obtain ⟨d, rfl, rfl⟩ := h
    exact settle_regOperand s d _
  | add | sub | mul | cmp =>
    obtain ⟨p, q, rfl, rfl, rfl⟩ := h
    exact settle_regOperands s p q _
  | div | mod =>
    obtain ⟨p, q, rfl, rfl, hz, rfl⟩ := h
    refine (settle_regOperands s p q _).trans ?_
    simp only [hz, if_false, settle_ok]
  | psh =>
    obtain ⟨q, rfl, hz, rfl⟩ := h
    refine (settle_regOperand s q _).trans ?_
    rw [push_eq, if_neg hz]
    rfl
  | pop =>
    obtain ⟨d, rfl, hz, rfl⟩ := h
    refine (settle_regOperand s d _).trans ?_
    rw [pop_eq, if_neg (Nat.not_le.2 hz)]
    rfl
  | call =>
    obtain ⟨q, rfl, hz, hp, rfl⟩ := h
    refine (settle_regOperand s q _).trans ?_
    rw [checkPush, if_neg hz, returnAddress, if_pos hp]
    simp only [bind, Except.bind, push_eq, hz, if_false, settle_ok]
    rfl
  | ret =>
    obtain ⟨hz, rfl⟩ := h
    rw [exec, execRet, pop_eq, if_neg (Nat.not_le.2 hz)]
    rfl

/-- An instruction whose register operands are good and whose own check fails is the entry of that check's fault. -/
theorem exec_of_ownFault {i : Instr} {s : State} {f : FaultRecord} (hwf : i.wf = true) (h : OwnFault i s f) :
    exec i s = .next (takeFault s f) := by
  cases i with
  | psh =>
    obtain ⟨hz, rfl⟩ := h
    obtain ⟨q, rfl⟩ := namesRegister_eq_true_iff.1 (by simpa [Instr.wf, Instr.registerOperands] using hwf)
    refine (settle_regOperand s q _).trans ?_
    rw [push_eq, if_pos hz, hz]
    rfl
  | pop =>
    obtain ⟨hz, rfl⟩ := h
    obtain ⟨q, rfl⟩ := namesRegister_eq_true_iff.1 (by simpa [Instr.wf, Instr.registerOperands] using hwf)
    refine (settle_regOperand s q _).trans ?_
    rw [pop_eq, if_pos hz]
    rfl
  | call =>
    obtain ⟨q, rfl⟩ := namesRegister_eq_true_iff.1 (by simpa [Instr.wf, Instr.registerOperands] using hwf)
    refine (settle_regOperand s q _).trans ?_
    obtain ⟨hz, rfl⟩ | ⟨hz, hp, rfl⟩ := h
    · rw [checkPush, if_pos hz, hz]
      rfl
    · rw [checkPush, if_neg hz, returnAddress, if_neg (Nat.not_lt.2 hp)]
      rfl
  | ret =>
    obtain ⟨hz, rfl⟩ := h
    rw [exec, execRet, pop_eq, if_pos hz]
    rfl
  | div | mod =>
    obtain ⟨q, rfl, hz, rfl⟩ := h
    obtain ⟨p, rfl⟩ := namesRegister_eq_true_iff.1 (by simpa [Instr.wf, Instr.registerOperands] using hwf)
    refine (settle_regOperands s p q _).trans ?_
    simp only [hz, if_true, raise, settle_error]
  | ldi | prn | hlt | jmp | jeq | jne | add | sub | mul | inc | dec | cmp => exact h.elim

/-- Every instruction's execution is the settlement of an effect, so it has a next state. -/
theorem exec_has_next (i : Instr) (s : State) : ∃ t, exec i s = .next t := by
  cases i with
  | hlt => exact ⟨_, rfl⟩
  | _ => exact settle_has_next s _

end Sys2Proof.Machine
end

section
/-! Proofs of the family `other`, frames: what no instruction changes, said once for completions and faults alike. -/
namespace Sys2Proof.Machine

/-! ## Registers left alone -/

theorem sameRegsBut.refl (s : State) (written : List Reg) : sameRegsBut s s written := fun _ _ => rfl

/-- A write to a listed register keeps the frame. -/
theorem sameRegsBut.setReg {s t : State} {written : List Reg} (h : sameRegsBut s t written) {d : Reg}
    (hd : d ∈ written) (v : Byte) : sameRegsBut s (t.setReg d v) written := by
  intro r hr
  have hne : d ≠ r := fun hdr => hr (hdr ▸ hd)
  rw [State.reg_setReg_other t hne, h r hr]

@[simp] theorem regsNamed_byte (r : Reg) : regsNamed r.byte = [r] := by
  simp [regsNamed, r.isLt]

theorem mem_regsNamed {r : Reg} {b : Byte} (h : r ∈ regsNamed b) : b = r.byte := by
  obtain ⟨q, rfl⟩ | hb := byte_register_or_above b
  · rw [regsNamed_byte, List.mem_singleton] at h
    rw [h]
  · simp [regsNamed, Nat.not_lt.2 hb] at h

/-! ## The frame of every instruction -/

/-- What execution of `i` leaves alone: registers it does not name, memory but for the cell of a push, FL but for the
equal bit of CMP. -/
structure Framed (i : Instr) (s t : State) : Prop where
  regs : sameRegsBut s t (writtenRegs i)
  memory : t.mem = s.mem ∨ i.op ∈ [Op.psh, .call] ∧ ∃ v, t.mem = s.mem.write (s.sp - 1#8).toNat v
  flags : t.fl = s.fl ∨ i.op = .cmp ∧ ∃ e, t.fl = withEqualBit s.fl e

theorem takeFault_framed (i : Instr) (s : State) (f : FaultRecord) : Framed i s (takeFault s f) :=
  ⟨sameRegsBut.refl s _, .inl rfl, .inl rfl⟩

/-- An instruction whose one effect on registers, memory and FL is the write of its destination. -/
theorem framed_of_setReg {i : Instr} {s t : State} {d : Reg} {v : Byte} (hd : writtenRegs i = regsNamed d.byte)
    (hregs : ∀ r, t.reg r = (s.setReg d v).reg r) (hmem : t.mem = s.mem) (hfl : t.fl = s.fl) : Framed i s t := by
  refine ⟨fun r hr => ?_, .inl hmem, .inl hfl⟩
  rw [hregs]
  exact (sameRegsBut.refl s (writtenRegs i)).setReg (by simp [hd]) v r hr

theorem Completed.framed {i : Instr} {s t : State} (h : Completed i s t) : Framed i s t := by
  cases i with
  | ldi | inc | dec =>
    obtain ⟨d, rfl, rfl⟩ := h
    exact framed_of_setReg rfl (fun _ => rfl) rfl rfl
  | add | sub | mul =>
    obtain ⟨d, _, rfl, -, rfl⟩ := h
    exact framed_of_setReg rfl (fun _ => rfl) rfl rfl
  | div | mod =>
    obtain ⟨d, _, rfl, -, -, rfl⟩ := h
    exact framed_of_setReg rfl (fun _ => rfl) rfl rfl
  | prn | jmp =>
    obtain ⟨_, -, rfl⟩ := h
    exact ⟨sameRegsBut.refl s _, .inl rfl, .inl rfl⟩
  | jeq | jne =>
    obtain ⟨_, -, rfl⟩ := h
    split <;> exact ⟨sameRegsBut.refl s _, .inl rfl, .inl rfl⟩
  | hlt =>
    cases h
    exact ⟨sameRegsBut.refl s _, .inl rfl, .inl rfl⟩
  | psh =>
    obtain ⟨_, -, -, rfl⟩ := h
    exact ⟨(sameRegsBut.refl s [7]).setReg (List.mem_singleton_self 7) _, .inr ⟨by simp [Instr.op], _, rfl⟩, .inl rfl⟩
  | call =>
    obtain ⟨_, -, -, -, rfl⟩ := h
    exact ⟨(sameRegsBut.refl s [7]).setReg (List.mem_singleton_self 7) _, .inr ⟨by simp [Instr.op], _, rfl⟩, .inl rfl⟩
  | ret =>
    obtain ⟨-, rfl⟩ := h
    exact ⟨(sameRegsBut.refl s [7]).setReg (List.mem_singleton_self 7) _, .inl rfl, .inl rfl⟩
  | pop =>
    obtain ⟨d, rfl, -, rfl⟩ := h
    have hd : d ∈ writtenRegs (.pop d.byte) := by simp [writtenRegs]
    have hsp : 7 ∈ writtenRegs (.pop d.byte) := List.mem_cons_self
    exact ⟨((sameRegsBut.refl s _).setReg hd _).setReg hsp _, .inl rfl, .inl rfl⟩
  | cmp =>
    obtain ⟨_, _, -, -, rfl⟩ := h
    exact ⟨sameRegsBut.refl s _, .inl rfl, .inr ⟨rfl, _, rfl⟩⟩

theorem exec_framed {i : Instr} {s t : State} (h : exec i s = .next t) : Framed i s t := by
  obtain hdone | ⟨f, -, rfl⟩ := exec_next h
  · exact hdone.framed
  · exact takeFault_framed i s f

/-- Settles O31, by the frame of every instruction. -/
theorem registerFrame : Obligations.RegisterFrame := fun _ _ _ h => (exec_framed h).regs

/-- Settles O32, by the frame of every instruction: a write leaves every other cell alone. -/
theorem memoryFrame : Obligations.MemoryFrame := by
  intro i s t h
  obtain hmem | ⟨hop, v, hmem⟩ := (exec_framed h).memory
  · exact ⟨fun _ a _ => by rw [hmem], fun _ a => by rw [hmem]⟩
  · exact ⟨fun _ a ha => by rw [hmem, Memory.read_write_other _ v ha], fun hnot => absurd hop hnot⟩

/-- Settles O33, by the frame of every instruction: CMP keeps the reserved bits. -/
theorem onlyCmpWritesFlagBitZero : Obligations.OnlyCmpWritesFlagBitZero := by
  intro i s t h
  obtain hfl | ⟨hop, e, hfl⟩ := (exec_framed h).flags
  · exact ⟨fun _ => hfl, fun k _ => by rw [hfl]⟩
  · exact ⟨fun hne => absurd hop hne, fun k hk => by rw [hfl, reservedBits_withEqualBit s.fl e (by omega)]⟩

/-! ## Status and pc -/

/-- The pc moves past the instruction (40_execution_engine.md R61). -/
def Advances (i : Instr) (s t : State) : Prop :=
  t.pc = s.pc + BitVec.ofNat Config.pcBits (encode i).length ∧ i.op ∉ [Op.call, .ret, .jmp] ∧
    (i.op = .jeq → s.equalFlag = false) ∧ (i.op = .jne → s.equalFlag = true)

/-- The pc takes a byte, by one of the five control transfers. -/
def Transfers (i : Instr) (s t : State) : Prop :=
  (∃ target : Byte, t.pc = target.setWidth Config.pcBits) ∧ i.op ∈ [Op.call, .ret, .jmp, .jeq, .jne] ∧
    (i.op = .jeq → s.equalFlag = true) ∧ (i.op = .jne → s.equalFlag = false)

theorem advances_of_op {i : Instr} {s t : State} (hpc : t.pc = s.pc + BitVec.ofNat Config.pcBits (encode i).length)
    (hop : i.op ∉ [Op.call, .ret, .jmp, .jeq, .jne]) : Advances i s t := by
  simp only [List.mem_cons, List.not_mem_nil, or_false, not_or] at hop
  obtain ⟨hcall, hret, hjmp, hjeq, hjne⟩ := hop
  exact ⟨hpc, by simp [hcall, hret, hjmp], fun h => absurd h hjeq, fun h => absurd h hjne⟩

/-- A completed instruction is HLT, which leaves the pc, or keeps the status and moves the pc. -/
theorem Completed.control {i : Instr} {s t : State} (h : Completed i s t) :
    (i = .hlt ∧ t.status = .halted ∧ t.pc = s.pc) ∨ (t.status = s.status ∧ (Advances i s t ∨ Transfers i s t)) := by
  cases i with
  | hlt =>
    cases h
    exact .inl ⟨rfl, rfl, rfl⟩
  | ldi | prn | inc | dec =>
    obtain ⟨_, -, rfl⟩ := h
    exact .inr ⟨rfl, .inl (advances_of_op rfl (by simp [Instr.op]))⟩
  | psh | pop =>
    obtain ⟨_, -, -, rfl⟩ := h
    exact .inr ⟨rfl, .inl (advances_of_op rfl (by simp [Instr.op]))⟩
  | add | sub | mul | cmp =>
    obtain ⟨_, _, -, -, rfl⟩ := h
    exact .inr ⟨rfl, .inl (advances_of_op rfl (by simp [Instr.op]))⟩
  | div | mod =>
    obtain ⟨_, _, -, -, -, rfl⟩ := h
    exact .inr ⟨rfl, .inl (advances_of_op rfl (by simp [Instr.op]))⟩
  | call =>
    obtain ⟨_, -, -, -, rfl⟩ := h
    exact .inr ⟨rfl, .inr ⟨⟨_, rfl⟩, by simp [Instr.op], nofun, nofun⟩⟩
  | ret =>
    obtain ⟨-, rfl⟩ := h
    exact .inr ⟨rfl, .inr ⟨⟨_, rfl⟩, by simp [Instr.op], nofun, nofun⟩⟩
  | jmp =>
    obtain ⟨_, -, rfl⟩ := h
    exact .inr ⟨rfl, .inr ⟨⟨_, rfl⟩, by simp [Instr.op], nofun, nofun⟩⟩
  | jeq =>
    obtain ⟨q, -, rfl⟩ := h
    cases hE : s.equalFlag with
    | true => exact .inr ⟨rfl, .inr ⟨⟨_, rfl⟩, by simp [Instr.op], fun _ => hE, nofun⟩⟩
    | false => exact .inr ⟨rfl, .inl ⟨rfl, by simp [Instr.op], fun _ => hE, nofun⟩⟩
  | jne =>
    obtain ⟨q, -, rfl⟩ := h
    cases hE : s.equalFlag with
    | true => exact .inr ⟨rfl, .inl ⟨rfl, by simp [Instr.op], nofun, fun _ => hE⟩⟩
    | false => exact .inr ⟨rfl, .inr ⟨⟨_, rfl⟩, by simp [Instr.op], nofun, fun _ => hE⟩⟩

/-- The register an ALU instruction may write is the one its first operand names, and CMP writes none. -/
theorem head?_operands_of_written {i : Instr} {r : Reg}
    (hop : i.op ∈ [Op.add, .sub, .mul, .div, .mod, .inc, .dec, .cmp]) (hr : r ∈ writtenRegs i) :
    i.op ≠ .cmp ∧ i.operands.head? = some r.byte := by
  cases i with
  | add | sub | mul | div | mod | inc | dec =>
    rw [← mem_regsNamed hr]
    exact ⟨nofun, rfl⟩
  | cmp => cases hr
  | ldi | prn | hlt | psh | pop | call | ret | jmp | jeq | jne => simp [Instr.op] at hop

/-- The ALU class shares no operation with the pushes and the control transfers. -/
theorem alu_op_disjoint {op : Op} (h : op ∈ [Op.add, .sub, .mul, .div, .mod, .inc, .dec, .cmp]) :
    op ∉ [Op.psh, .call] ∧ op ∉ [Op.call, .ret, .jmp, .jeq, .jne] := by
  revert h
  cases op <;> decide

/-- No ALU instruction halts or transfers control. -/
theorem Completed.advances_of_alu {i : Instr} {s t : State} (h : Completed i s t)
    (hop : i.op ∈ [Op.add, .sub, .mul, .div, .mod, .inc, .dec, .cmp]) : Advances i s t := by
  obtain ⟨rfl, -, -⟩ | ⟨-, hadvance | ⟨-, htransfer, -, -⟩⟩ := h.control
  · simp [Instr.op] at hop
  · exact hadvance
  · exact absurd htransfer (alu_op_disjoint hop).2

/-- Settles O36, by the frame of every instruction and the pc of a completed one. -/
theorem aluChangesOnlyWhatItNames : Obligations.AluChangesOnlyWhatItNames := by
  intro i s t hop h
  obtain ⟨hregs, hmem, hfl⟩ := exec_framed h
  refine ⟨fun r hne => ?_, fun k hne => ?_, ?_, ?_, ?_⟩
  · exact head?_operands_of_written hop (by_contra fun hr => hne (hregs r hr))
  · obtain hfl | ⟨hcmp, e, hfl⟩ := hfl
    · exact absurd (by rw [hfl]) hne
    · exact ⟨hcmp, by_contra fun hk => hne (by rw [hfl, reservedBits_withEqualBit s.fl e hk])⟩
  · obtain hmem | ⟨hpush, -⟩ := hmem
    · exact fun a => by rw [hmem]
    · exact absurd hpush (alu_op_disjoint hop).1
  · obtain hout | ⟨r, rfl, -⟩ := onlyPrnAppendsOutput.2 i s t h
    · exact hout
    · simp [Instr.op] at hop
  · obtain hdone | ⟨f, -, rfl⟩ := exec_next h
    · exact .inr (hdone.advances_of_alu hop).1
    · exact .inl rfl

end Sys2Proof.Machine
end

section
/-! Proofs of the family `other`, the step: how a step ends, and the causes of its fault
(40_execution_engine.md sections 1 and 2, 60_exceptions.md sections 1 and 2). -/
namespace Sys2Proof.Machine

/-! ## How an instruction and a step end -/

theorem Completed.status {i : Instr} {s t : State} (h : Completed i s t) :
    t.status = s.status ∨ (i = .hlt ∧ t.status = .halted) := by
  obtain ⟨hi, hhalted, -⟩ | ⟨hsame, -⟩ := h.control
  · exact .inr ⟨hi, hhalted⟩
  · exact .inl hsame

/-- A completed instruction of a running engine does not fault. -/
theorem Completed.status_ne_faulted {i : Instr} {s t : State} (h : Completed i s t) (hrun : s.status = .running) :
    t.status ≠ .faulted := by
  obtain hsame | ⟨-, hhalted⟩ := h.status
  · rw [hsame, hrun]
    exact nofun
  · rw [hhalted]
    exact nofun

/-- A step completes the fetched instruction, or is the entry of a fault of the fetch or of that instruction. -/
theorem stepWith_cases {w : Wiring} {s t : State} (h : stepWith w s = .next t) :
    (∃ i, fetchInstr w s = .ok i ∧ Completed i s t) ∨
      ∃ f, t = takeFault s f ∧
        (fetchInstr w s = .error f ∨ ∃ i, fetchInstr w s = .ok i ∧ (OwnFault i s f ∨ OperandFault i f)) := by
  obtain ⟨-, ⟨f, hfetch, rfl⟩ | ⟨i, hfetch, hexec⟩⟩ := stepWith_next h
  · exact .inr ⟨f, rfl, .inl hfetch⟩
  · obtain hdone | ⟨f, hcause, rfl⟩ := exec_next hexec
    · exact .inl ⟨i, hfetch, hdone⟩
    · exact .inr ⟨f, rfl, .inr ⟨i, hfetch, hcause⟩⟩

/-- A running engine has a next state. -/
theorem stepWith_has_next (w : Wiring) {s : State} (hrun : s.status = .running) : ∃ t, stepWith w s = .next t := by
  rw [stepWith_running w hrun]
  cases fetchInstr w s with
  | error f => exact ⟨takeFault s f, rfl⟩
  | ok i => exact exec_has_next i s

/-- Settles O17, by a fetch that faults or an execution that has a next state. -/
theorem runningEngineAlwaysSteps : Obligations.RunningEngineAlwaysSteps :=
  fun w _ hrun => stepWith_has_next w hrun

/-- Settles O18, by the inversion of `exec`. -/
theorem executionCompletesHaltsOrFaults : Obligations.ExecutionCompletesHaltsOrFaults := by
  intro i s
  obtain ⟨t, h⟩ := exec_has_next i s
  refine ⟨t, h, ?_⟩
  obtain hdone | ⟨⟨kind, info⟩, -, rfl⟩ := exec_next h
  · obtain hstatus | ⟨hi, hhalted⟩ := hdone.status
    · exact .inl ⟨hstatus, hdone.fault⟩
    · exact .inr (.inl ⟨hi, hhalted, hdone.fault⟩)
  · exact .inr (.inr ⟨kind, info, takeFault_eq_afterFault s kind info⟩)

/-- Settles O20, by the inversion of the step. -/
theorem engineLeavesRunningOnlyByHltOrFault : Obligations.EngineLeavesRunningOnlyByHltOrFault := by
  refine ⟨⟨rfl, rfl⟩, fun _ _ _ => rfl, fun w s t h => ?_⟩
  have hrun := (stepWith_next h).1
  refine ⟨hrun, ?_⟩
  obtain ⟨i, hfetch, hdone⟩ | ⟨⟨kind, info⟩, rfl, -⟩ := stepWith_cases h
  · obtain hstatus | ⟨rfl, hhalted⟩ := hdone.status
    · exact .inl (hstatus.trans hrun)
    · exact .inr (.inl ⟨hhalted, hfetch⟩)
  · exact .inr (.inr ⟨kind, info, takeFault_eq_afterFault s kind info⟩)

/-- Settles O21: a step that ends FAULTED completed nothing, and a fault's entry changes status and record alone. -/
theorem faultingStepIsPrecise : Obligations.FaultingStepIsPrecise := by
  intro w s t h hfaulted
  obtain ⟨i, -, hdone⟩ | ⟨f, rfl, -⟩ := stepWith_cases h
  · exact absurd hfaulted (hdone.status_ne_faulted (stepWith_next h).1)
  · exact ⟨sameRegsBut.refl s [], fun _ => rfl, rfl, rfl, rfl, rfl⟩

/-! ## The causes of the faults -/

/-- The operand that named no register is one of the register operands. -/
theorem OperandFault.cause {i : Instr} {f : FaultRecord} (h : OperandFault i f) :
    ∃ b ∈ i.registerOperands, 7 < b.toNat ∧ f = ⟨.registerIndex, b.toNat⟩ := by
  obtain ⟨b, hb, habove, hldi, rfl⟩ := h
  refine ⟨b, ?_, habove, rfl⟩
  cases i with
  | ldi r imm => exact List.mem_singleton.2 (hldi r imm rfl)
  | _ => exact hb

/-- Settles O26: an entry of a fault completed nothing, so it has one of the causes of the inversion. -/
theorem faultsHaveTheirCause : Obligations.FaultsHaveTheirCause := by
  intro i s kind info hrun h
  obtain hdone | ⟨f, hcause, hf⟩ := exec_next h
  · exact absurd rfl (hdone.status_ne_faulted hrun)
  obtain rfl : ⟨kind, info⟩ = f := Option.some.inj (congrArg State.fault hf)
  obtain hown | hoperand := hcause
  · cases i with
    | psh =>
      obtain ⟨hz, ⟨⟩⟩ := hown
      exact ⟨by simp [Instr.op], BitVec.eq_of_toNat_eq hz, rfl⟩
    | pop | ret =>
      obtain ⟨hfull, ⟨⟩⟩ := hown
      exact ⟨by simp [Instr.op], hfull, rfl⟩
    | call =>
      obtain ⟨hz, ⟨⟩⟩ | ⟨-, hpc, ⟨⟩⟩ := hown
      · exact ⟨by simp [Instr.op], BitVec.eq_of_toNat_eq hz, rfl⟩
      · exact ⟨rfl, by omega, rfl⟩
    | div | mod =>
      obtain ⟨q, rfl, hz, ⟨⟩⟩ := hown
      exact ⟨by simp [Instr.op], q, rfl, rfl, BitVec.eq_of_toNat_eq hz⟩
    | ldi | prn | hlt | jmp | jeq | jne | add | sub | mul | inc | dec | cmp => exact hown.elim
  · obtain ⟨b, hb, habove, ⟨⟩⟩ := hoperand.cause
    exact ⟨b, hb, habove, rfl⟩

/-! ## The pc -/

/-- The advance of an instruction that lies inside the memory is exact. -/
theorem Advances.toNat_pc {i : Instr} {s t : State} (h : Advances i s t)
    (hin : s.pc.toNat + (encode i).length ≤ 256) : t.pc.toNat = s.pc.toNat + (encode i).length := by
  rw [h.1]
  exact State.advance_pc_toNat (by omega)

theorem Transfers.toNat_pc_le {i : Instr} {s t : State} (h : Transfers i s t) : t.pc.toNat ≤ 255 := by
  obtain ⟨⟨target, hpc⟩, -⟩ := h
  have htarget := byte_toNat_lt target
  have hexact : t.pc.toNat = target.toNat := by
    rw [hpc]
    exact State.jumpTo_pc_toNat s target
  omega

/-- Settles O27, by what a completed instruction does to the pc; a fault leaves it. -/
theorem pcAdvanceIsExact : Obligations.PcAdvanceIsExact := by
  intro w s t i hrun hfetch h
  rw [stepWith_of_fetchInstr hrun hfetch] at h
  obtain hdone | ⟨f, -, rfl⟩ := exec_next h
  · obtain ⟨-, hhalted, hpc⟩ | ⟨hstatus, hmove⟩ := hdone.control
    · exact ⟨fun _ => hpc, fun hrunning => nomatch hhalted.symm.trans hrunning⟩
    · refine ⟨fun hne => absurd (hstatus.trans hrun) hne, fun _ => ?_⟩
      obtain hadvance | htransfer := hmove
      · exact .inl ⟨hadvance.toNat_pc (pc_add_length_le_of_fetchInstr hfetch), hadvance.2⟩
      · exact .inr ⟨htransfer.toNat_pc_le, htransfer.2⟩
  · exact ⟨fun _ => rfl, nofun⟩

end Sys2Proof.Machine
end

section
/-! Proofs of the family `other`, the invariant of reachable states: it holds at reset and of every loaded image, and
every step and every run keeps it. -/
namespace Sys2Proof.Machine

/-! ## Legal fault records -/

/-- A byte that a configuration has no row for, the reference wiring has none for either. -/
theorem lookupOpcode_reference_eq_none {w : Wiring} {b : Byte} (h : lookupOpcode w b = none) :
    lookupOpcode .reference b = none := by
  cases w with
  | reference => exact h
  | complete =>
    rw [Option.eq_none_iff_forall_ne_some]
    intro row hrow
    obtain ⟨op, -, hrest⟩ := lookupOpcode_eq_some_iff.1 hrow
    rw [lookupOpcode_eq_some_iff.2 ⟨op, rfl, hrest⟩] at h
    cases h

/-- The three fetch faults are all there are (40_execution_engine.md R62 points 1 to 3). -/
theorem fetchInstr_error_cases {w : Wiring} {s : State} {f : FaultRecord} (h : fetchInstr w s = .error f) :
    (256 ≤ s.pc.toNat ∧ f = ⟨.memoryRange, s.pc.toNat⟩) ∨
      (lookupOpcode w (s.mem.read s.pc.toNat) = none ∧ f = ⟨.unknownOpcode, (s.mem.read s.pc.toNat).toNat⟩) ∨
      f = ⟨.memoryRange, 256⟩ := by
  obtain hpc | hpc : 256 ≤ s.pc.toNat ∨ s.pc.toNat ≤ 255 := by omega
  · rw [fetchInstr_past_memory w hpc] at h
    cases h
    exact .inl ⟨hpc, rfl⟩
  · cases hlookup : lookupOpcode w (s.mem.read s.pc.toNat) with
    | none =>
      rw [fetchInstr_unknown hpc hlookup] at h
      cases h
      exact .inr (.inl ⟨rfl, rfl⟩)
    | some row =>
      obtain ⟨tail, hwindow, hlen⟩ := codeWindow_eq_cons hpc
      have hdecode := decode_known tail hlookup
      by_cases hshort : tail.length < row.operandBytes
      · have htwo := operandBytes_le_two_of_lookup hlookup
        rw [fetchInstr_missing_operand hlookup (k := tail.length + 1) (by omega) (by omega) (by omega)] at h
        cases h
        exact .inr (.inr rfl)
      · rw [if_neg hshort] at hdecode
        rw [fetchInstr, hwindow, hdecode] at h
        cases h

theorem fetchInstr_error_legal {w : Wiring} {s : State} {f : FaultRecord} (hpc : s.pc.toNat ≤ 256)
    (h : fetchInstr w s = .error f) : f.legal := by
  obtain ⟨hpast, rfl⟩ | ⟨hlookup, rfl⟩ | rfl := fetchInstr_error_cases h
  · exact Nat.le_antisymm hpc hpast
  · refine ⟨byte_toNat_lt _, ?_⟩
    rw [BitVec.ofNat_toNat, BitVec.setWidth_eq]
    exact lookupOpcode_reference_eq_none hlookup
  · exact rfl

/-- A fault of the own check of an instruction that lies inside the memory. -/
theorem OwnFault.legal {i : Instr} {s : State} {f : FaultRecord} (h : OwnFault i s f)
    (hin : s.pc.toNat + (encode i).length ≤ 256) : f.legal := by
  cases i with
  | psh =>
    obtain ⟨-, rfl⟩ := h
    exact rfl
  | pop | ret =>
    obtain ⟨hfull, rfl⟩ := h
    exact ⟨hfull, Nat.le_of_lt_succ (byte_toNat_lt s.sp)⟩
  | call =>
    obtain ⟨-, rfl⟩ | ⟨-, hpast, rfl⟩ := h
    · exact rfl
    · exact Nat.le_antisymm hin hpast
  | div | mod =>
    obtain ⟨q, -, -, rfl⟩ := h
    exact q.isLt
  | ldi | prn | hlt | jmp | jeq | jne | add | sub | mul | inc | dec | cmp => exact h.elim

theorem OperandFault.legal {i : Instr} {f : FaultRecord} (h : OperandFault i f) : f.legal := by
  obtain ⟨b, -, habove, rfl⟩ := h.cause
  exact ⟨habove, Nat.le_of_lt_succ (byte_toNat_lt b)⟩

/-! ## The step -/

/-- A running engine that meets the invariant has no fault record. -/
theorem State.Inv.fault_eq_none {s : State} (h : s.Inv) (hrun : s.status = .running) : s.fault = none := by
  rw [← Option.not_isSome_iff_eq_none, h.record, hrun]
  exact nofun

/-- The entry of a legal fault keeps the invariant. -/
theorem State.Inv.takeFault {s : State} (h : s.Inv) {f : FaultRecord} (hf : f.legal) : (takeFault s f).Inv where
  memory := h.memory
  pcRange := h.pcRange
  reservedFlags := h.reservedFlags
  record := by simp
  recordLegal := by
    rintro g ⟨⟩
    exact hf

/-- A flag register whose reserved bits are 0 keeps them 0 when E is written. -/
theorem withEqualBit_toNat_lt {fl : Byte} (h : fl.toNat < 2) (e : Bool) : (withEqualBit fl e).toNat < 2 := by
  obtain hfl | hfl : fl.toNat = (0#8).toNat ∨ fl.toNat = (1#8).toNat := by
    simp only [BitVec.toNat_ofNat]
    omega
  all_goals
    rw [BitVec.eq_of_toNat_eq hfl]
    cases e <;> decide

/-- A completed instruction that lies inside the memory keeps the invariant of a running engine. -/
theorem Completed.inv {i : Instr} {s t : State} (h : Completed i s t) (hinv : s.Inv) (hrun : s.status = .running)
    (hin : s.pc.toNat + (encode i).length ≤ 256) : t.Inv := by
  have hnone : t.fault = none := h.fault.trans (hinv.fault_eq_none hrun)
  obtain ⟨-, hmem, hfl⟩ := h.framed
  refine ⟨?_, ?_, ?_, ?_, ?_⟩
  · obtain hmem | ⟨-, v, hmem⟩ := hmem
    · rw [hmem, hinv.memory]
    · rw [hmem, Memory.wf_write _ _ _ hinv.memory (byte_toNat_lt _)]
  · obtain ⟨-, -, hpc⟩ | ⟨-, hadvance | htransfer⟩ := h.control
    · rw [hpc]
      exact hinv.pcRange
    · rw [hadvance.toNat_pc hin]
      exact hin
    · exact Nat.le_succ_of_le htransfer.toNat_pc_le
  · obtain hfl | ⟨-, e, hfl⟩ := hfl
    · rw [hfl]
      exact hinv.reservedFlags
    · rw [hfl]
      exact withEqualBit_toNat_lt hinv.reservedFlags e
  · simp [hnone, h.status_ne_faulted hrun]
  · simp [hnone]

/-- Settles O28, by the inversion of the step: completions and legal fault entries keep the invariant. -/
theorem stepKeepsInvariant : Obligations.StepKeepsInvariant := by
  intro w s t hinv h
  obtain ⟨i, hfetch, hdone⟩ | ⟨f, rfl, hcause⟩ := stepWith_cases h
  · exact hdone.inv hinv (stepWith_next h).1 (pc_add_length_le_of_fetchInstr hfetch)
  · refine hinv.takeFault ?_
    obtain hfetch | ⟨i, hfetch, hown | hoperand⟩ := hcause
    · exact fetchInstr_error_legal hinv.pcRange hfetch
    · exact hown.legal (pc_add_length_le_of_fetchInstr hfetch)
    · exact hoperand.legal

/-- Settles O22: the invariant before the step rules a record out, and after it ties the record to FAULTED. -/
theorem faultRecordIsSetOnce : Obligations.FaultRecordIsSetOnce := by
  intro w s t hinv h
  have hinv' := stepKeepsInvariant w s t hinv h
  refine ⟨hinv.fault_eq_none (stepWith_next h).1, ?_⟩
  rw [← hinv'.record, Option.isSome_iff_exists]
  exact exists_congr fun f => ⟨fun hf => ⟨hf, hinv'.recordLegal f hf⟩, And.left⟩

/-! ## Reset and load -/

/-- Settles O8, field by field. -/
theorem resetControlState : Obligations.ResetControlState :=
  ⟨rfl, rfl, rfl, rfl, rfl, fun _ => rfl⟩

/-- A state that differs from reset in its memory and meets the invariant, when that memory is canonical. -/
theorem inv_reset_with_memory {m : Memory} (h : m.wf = true) : State.Inv { State.reset with mem := m } where
  memory := h
  pcRange := Nat.zero_le 256
  reservedFlags := Nat.zero_lt_two
  record := by simp [State.reset]
  recordLegal := nofun

/-- Settles O9: the memory of reset is canonical. -/
theorem resetMeetsInvariant : Obligations.ResetMeetsInvariant := inv_reset_with_memory reset_memory_wf

/-- What a cell holds after stores at increasing addresses. -/
theorem Memory.read_writeBytes (m : Memory) (a : Nat) (bytes : List Byte) (k : Nat) :
    (m.writeBytes a bytes).read k = if a ≤ k then bytes.getD (k - a) (m.read k) else m.read k := by
  induction bytes generalizing m a with
  | nil => simp [Memory.writeBytes]
  | cons b rest ih =>
    rw [Memory.writeBytes, ih]
    obtain hlt | rfl | hgt := Nat.lt_trichotomy k a
    · rw [if_neg (by omega), if_neg (by omega), Memory.read_write_other m b (by omega)]
    · rw [if_neg (by omega), if_pos le_rfl, Memory.read_write_same, Nat.sub_self, List.getD_cons_zero]
    · have hsub : k - a = (k - (a + 1)) + 1 := by omega
      rw [if_pos (by omega), if_pos (by omega), Memory.read_write_other m b (by omega), hsub, List.getD_cons_succ]

theorem load_of_length_le {image : List Byte} (h : image.length ≤ 256) :
    load image = .ok { State.reset with mem := State.reset.mem.writeBytes 0 image } := if_pos h

theorem load_of_length_gt {image : List Byte} (h : 256 < image.length) : load image = .error .imageTooLong :=
  if_neg (Nat.not_le.2 h)

theorem loaded_memory_wf {image : List Byte} (h : image.length ≤ 256) :
    (State.reset.mem.writeBytes 0 image).wf = true :=
  Memory.wf_writeBytes _ _ _ reset_memory_wf (by rwa [Nat.zero_add])

/-- Settles O10, by what a cell holds after the stores of the load. -/
theorem loadPlacesImage : Obligations.LoadPlacesImage := by
  refine ⟨fun image hlen => ⟨_, load_of_length_le hlen, fun k hk => ?_, fun k hk => ?_, loaded_memory_wf hlen,
    rfl, rfl, rfl, rfl, rfl, rfl⟩, fun image => load_of_length_gt⟩
  · rw [Memory.read_writeBytes, if_pos (Nat.zero_le k), Nat.sub_zero, List.getD_eq_getElem _ _ hk]
  · rw [Memory.read_writeBytes, if_pos (Nat.zero_le k), Nat.sub_zero, List.getD_eq_default _ _ hk]
    rfl

theorem inv_of_load {image : List Byte} {s : State} (h : load image = .ok s) : s.Inv := by
  obtain hlen | hlen := le_or_gt image.length 256
  · rw [load_of_length_le hlen] at h
    cases h
    exact inv_reset_with_memory (loaded_memory_wf hlen)
  · rw [load_of_length_gt hlen] at h
    cases h

/-! ## Runs -/

theorem run_zero_of_running (w : Wiring) {s : State} (h : s.status = .running) : run w 0 s = .outOfFuel s := by
  rw [run.eq_def, h]

theorem run_succ_of_next {w : Wiring} {s t : State} (h : stepWith w s = .next t) (n : Nat) :
    run w (n + 1) s = run w n t := by
  rw [run.eq_def, (stepWith_next h).1]
  simp only [h]

/-- A run is over, has no fuel, or goes on after a step: what these three keep holds of every run. -/
theorem run_induction {w : Wiring} {motive : Nat → State → Prop}
    (ended : ∀ n s, s.status ≠ .running → motive n s)
    (noFuel : ∀ s, s.status = .running → motive 0 s)
    (step : ∀ n s t, stepWith w s = .next t → motive n t → motive (n + 1) s) (n : Nat) (s : State) : motive n s := by
  induction n generalizing s with
  | zero => exact (em (s.status = .running)).elim (noFuel s) (ended 0 s)
  | succ n ih =>
    by_cases hrun : s.status = .running
    · obtain ⟨t, h⟩ := stepWith_has_next w hrun
      exact step n s t h (ih t)
    · exact ended (n + 1) s hrun

/-- A run that comes to a state keeps the invariant up to it. -/
theorem run_keeps_inv {w : Wiring} {fuel : Nat} {s t : State} (hinv : s.Inv)
    (h : run w fuel s = .ended t ∨ run w fuel s = .outOfFuel t) : t.Inv := by
  induction fuel, s using run_induction (w := w) with
  | ended n s hend =>
    rw [run_of_not_running w n hend] at h
    obtain ⟨⟨⟩⟩ | ⟨⟨⟩⟩ := h
    exact hinv
  | noFuel s hrun =>
    rw [run_zero_of_running w hrun] at h
    obtain ⟨⟨⟩⟩ | ⟨⟨⟩⟩ := h
    exact hinv
  | step n s u hstep ih =>
    rw [run_succ_of_next hstep] at h
    exact ih (stepKeepsInvariant w s u hinv hstep) h

/-- Settles O29: a loaded state meets the invariant, and a run keeps it. -/
theorem runsFromAnyImageKeepInvariant : Obligations.RunsFromAnyImageKeepInvariant :=
  fun _ _ _ _ _ hload => run_keeps_inv (inv_of_load hload)

/-- More fuel keeps the end of a run. -/
theorem run_add_of_ended {w : Wiring} {n : Nat} {s t : State} (k : Nat) (h : run w n s = .ended t) :
    run w (n + k) s = .ended t ∧ t.status ≠ .running := by
  induction n, s using run_induction (w := w) with
  | ended n s hend =>
    rw [run_of_not_running w n hend] at h
    cases h
    exact ⟨run_of_not_running w (n + k) hend, hend⟩
  | noFuel s hrun =>
    rw [run_zero_of_running w hrun] at h
    cases h
  | step n s u hstep ih =>
    rw [run_succ_of_next hstep] at h
    rw [Nat.add_right_comm, run_succ_of_next hstep]
    exact ih h

theorem run_ne_stuck (w : Wiring) (n : Nat) (s : State) : run w n s ≠ .stuck := by
  induction n, s using run_induction (w := w) with
  | ended n s hend =>
    rw [run_of_not_running w n hend]
    exact nofun
  | noFuel s hrun =>
    rw [run_zero_of_running w hrun]
    exact nofun
  | step n s u hstep ih => rwa [run_succ_of_next hstep]

/-- Settles O30, by induction on the run. -/
theorem moreFuelKeepsTheEnd : Obligations.MoreFuelKeepsTheEnd :=
  ⟨fun _ _ k _ _ h => run_add_of_ended k h, run_ne_stuck⟩

end Sys2Proof.Machine
end

section
/-! Proofs of the family `other`, the instructions one by one: encoding, result, completion, frame and own fault. Each
instruction completes by `exec_of_completed`, and its frame is that of `Completed`. -/
namespace Sys2Proof.Machine

/-! ## Frames of completed instructions -/

theorem Completed.keepsRun {i : Instr} {s t : State} (h : Completed i s t) (hop : i.op ≠ .hlt) : sameRun s t := by
  refine ⟨h.status.resolve_right ?_, h.fault⟩
  rintro ⟨rfl, -⟩
  exact hop rfl

theorem Completed.out_eq {i : Instr} {s t : State} (h : Completed i s t) (hop : i.op ≠ .prn) : t.out = s.out := by
  refine h.out.resolve_right ?_
  rintro ⟨r, rfl, -⟩
  exact hop rfl

/-- A completed instruction that neither halts, emits, pushes nor compares writes registers and the pc alone. -/
theorem Completed.writesOnlyRegs {i : Instr} {s t : State} (h : Completed i s t)
    (hop : i.op ∉ [Op.hlt, .prn, .psh, .call, .cmp]) : onlyRegs s t (writtenRegs i) := by
  simp only [List.mem_cons, List.not_mem_nil, or_false, not_or] at hop
  obtain ⟨hhlt, hprn, hpsh, hcall, hcmp⟩ := hop
  obtain ⟨hregs, hmem, hfl⟩ := h.framed
  have hmem := hmem.resolve_right (by simp [hpsh, hcall])
  exact ⟨hregs, fun a => by rw [hmem], hfl.resolve_right (by simp [hcmp]), h.keepsRun hhlt, h.out_eq hprn⟩

/-- An instruction that completes with one register written and the pc past it. -/
theorem exec_writes_register {i : Instr} {s : State} {d : Reg} {v : Byte} {n : Nat}
    (h : Completed i s ((s.setReg d v).advance n)) (hop : i.op ∉ [Op.hlt, .prn, .psh, .call, .cmp])
    (hwritten : writtenRegs i = regsNamed d.byte) :
    ∃ t, exec i s = .next t ∧ t.reg d = v ∧ t.pc = s.pc + BitVec.ofNat Config.pcBits n ∧ onlyRegs s t [d] := by
  refine ⟨_, exec_of_completed h, State.reg_setReg_same s d v, rfl, ?_⟩
  rw [← regsNamed_byte, ← hwritten]
  exact h.writesOnlyRegs hop

/-! ## Data movement, output and halt -/

/-- Settles O37: LDI completes with its destination written. -/
theorem ldiLoadsImmediate : Obligations.LdiLoadsImmediate :=
  ⟨fun _ _ => rfl, fun _ r _ => exec_writes_register ⟨r, rfl, rfl⟩ (by simp [Instr.op]) rfl⟩

/-- Settles O38, by what a completed PRN leaves field by field. -/
theorem prnEmitsRegister : Obligations.PrnEmitsRegister :=
  ⟨fun _ => rfl, fun s r => ⟨_, exec_of_completed ⟨r, rfl, rfl⟩, rfl, rfl, sameRegsBut.refl s [], fun _ => rfl, rfl,
    rfl, rfl⟩⟩

/-- Settles O39, by what a completed HLT leaves field by field. -/
theorem hltHalts : Obligations.HltHalts :=
  ⟨rfl, fun s => ⟨_, exec_of_completed (i := .hlt) rfl, rfl, rfl, rfl, sameRegsBut.refl s [], fun _ => rfl, rfl, rfl⟩⟩

/-! ## The ALU -/

theorem aluAdd_toNat (x y : Byte) : (aluAdd x y).toNat = (x.toNat + y.toNat) % 256 := BitVec.toNat_ofNat _ _

theorem aluMul_toNat (x y : Byte) : (aluMul x y).toNat = (x.toNat * y.toNat) % 256 := BitVec.toNat_ofNat _ _

theorem aluInc_toNat (x : Byte) : (aluInc x).toNat = (x.toNat + 1) % 256 := BitVec.toNat_ofNat _ _

/-- A byte made of an integer is its nonnegative remainder (46_alu.md R86, R91). -/
theorem byte_ofInt_toNat (n : Int) : ((BitVec.ofInt Config.wordBits n).toNat : Int) = n % 256 := by
  rw [BitVec.toNat_ofInt]
  exact Int.toNat_of_nonneg (Int.emod_nonneg n (by decide))

theorem aluSub_toNat (x y : Byte) : ((aluSub x y).toNat : Int) = ((x.toNat : Int) - y.toNat) % 256 :=
  byte_ofInt_toNat _

theorem aluDec_toNat (x : Byte) : ((aluDec x).toNat : Int) = ((x.toNat : Int) - 1) % 256 := byte_ofInt_toNat _

/-- A quotient of bytes is a byte: it never wraps. -/
theorem aluDiv_toNat (x y : Byte) : (aluDiv x y).toNat = x.toNat / y.toNat :=
  (BitVec.toNat_ofNat _ _).trans (Nat.mod_eq_of_lt ((Nat.div_le_self _ _).trans_lt (byte_toNat_lt x)))

/-- A remainder of bytes is a byte. -/
theorem aluMod_toNat (x y : Byte) : (aluMod x y).toNat = x.toNat % y.toNat :=
  (BitVec.toNat_ofNat _ _).trans (Nat.mod_eq_of_lt ((Nat.mod_le _ _).trans_lt (byte_toNat_lt x)))

/-- Settles O47: the register written holds `aluAdd`. -/
theorem addAddsModulo256 : Obligations.AddAddsModulo256 := by
  refine ⟨fun _ _ => rfl, fun s a b => ?_⟩
  obtain ⟨t, hexec, hreg, hrest⟩ :=
    exec_writes_register (s := s) (i := .add a.byte b.byte) ⟨a, b, rfl, rfl, rfl⟩ (by simp [Instr.op]) rfl
  exact ⟨t, hexec, by rw [hreg, aluAdd_toNat], hrest⟩

/-- Settles O48: the register written holds `aluSub`. -/
theorem subSubtractsModulo256 : Obligations.SubSubtractsModulo256 := by
  refine ⟨fun _ _ => rfl, fun s a b => ?_⟩
  obtain ⟨t, hexec, hreg, hrest⟩ :=
    exec_writes_register (s := s) (i := .sub a.byte b.byte) ⟨a, b, rfl, rfl, rfl⟩ (by simp [Instr.op]) rfl
  exact ⟨t, hexec, by rw [hreg, aluSub_toNat], hrest⟩

/-- Settles O49: the register written holds `aluMul`. -/
theorem mulMultipliesModulo256 : Obligations.MulMultipliesModulo256 := by
  refine ⟨fun _ _ => rfl, fun s a b => ?_⟩
  obtain ⟨t, hexec, hreg, hrest⟩ :=
    exec_writes_register (s := s) (i := .mul a.byte b.byte) ⟨a, b, rfl, rfl, rfl⟩ (by simp [Instr.op]) rfl
  exact ⟨t, hexec, by rw [hreg, aluMul_toNat], hrest⟩

theorem byte_toNat_ne_zero {b : Byte} (h : b ≠ 0#8) : b.toNat ≠ 0 := fun hz => h (BitVec.eq_of_toNat_eq hz)

/-- Settles O50: with a nonzero divisor the register written holds `aluDiv`. -/
theorem divDivides : Obligations.DivDivides := by
  refine ⟨fun _ _ => rfl, fun s a b hb => ?_⟩
  obtain ⟨t, hexec, hreg, hrest⟩ := exec_writes_register (s := s) (i := .div a.byte b.byte)
    ⟨a, b, rfl, rfl, byte_toNat_ne_zero hb, rfl⟩ (by simp [Instr.op]) rfl
  exact ⟨t, hexec, by rw [hreg, aluDiv_toNat], hrest⟩

/-- Settles O51: with a nonzero divisor the register written holds `aluMod`. -/
theorem modTakesRemainder : Obligations.ModTakesRemainder := by
  refine ⟨fun _ _ => rfl, fun s a b hb => ?_⟩
  obtain ⟨t, hexec, hreg, hrest⟩ := exec_writes_register (s := s) (i := .mod a.byte b.byte)
    ⟨a, b, rfl, rfl, byte_toNat_ne_zero hb, rfl⟩ (by simp [Instr.op]) rfl
  exact ⟨t, hexec, by rw [hreg, aluMod_toNat], hrest⟩

/-- Settles O52, by the own check of both instructions. -/
theorem divModByZeroFault : Obligations.DivModByZeroFault := by
  intro s a b hb
  have hz : (s.reg b).toNat = 0 := by rw [hb, BitVec.toNat_zero]
  have hwf : [a.byte, b.byte].all namesRegister = true := by simp
  exact ⟨exec_of_ownFault (i := .div a.byte b.byte) hwf ⟨b, rfl, hz, rfl⟩,
    exec_of_ownFault (i := .mod a.byte b.byte) hwf ⟨b, rfl, hz, rfl⟩⟩

/-- Settles O53: the register written holds `aluInc`. -/
theorem incIncrementsModulo256 : Obligations.IncIncrementsModulo256 := by
  refine ⟨fun _ => rfl, fun s a => ?_⟩
  obtain ⟨t, hexec, hreg, hrest⟩ :=
    exec_writes_register (s := s) (i := .inc a.byte) ⟨a, rfl, rfl⟩ (by simp [Instr.op]) rfl
  exact ⟨t, hexec, by rw [hreg, aluInc_toNat], hrest⟩

/-- Settles O54: the register written holds `aluDec`. -/
theorem decDecrementsModulo256 : Obligations.DecDecrementsModulo256 := by
  refine ⟨fun _ => rfl, fun s a => ?_⟩
  obtain ⟨t, hexec, hreg, hrest⟩ :=
    exec_writes_register (s := s) (i := .dec a.byte) ⟨a, rfl, rfl⟩ (by simp [Instr.op]) rfl
  exact ⟨t, hexec, by rw [hreg, aluDec_toNat], hrest⟩

/-- Settles O55: bit 0 is the comparison, and the write of E keeps the other bits. -/
theorem cmpSetsEqualFlag : Obligations.CmpSetsEqualFlag := by
  refine ⟨fun _ _ => rfl, fun s a b => ⟨_, exec_of_completed ⟨a, b, rfl, rfl, rfl⟩, ?_, fun k hk => ?_, rfl,
    sameRegsBut.refl s [], fun _ => rfl, ⟨rfl, rfl⟩, rfl⟩⟩
  · rw [State.advance_fl, State.setEqualFlag_fl, equalBit_withEqualBit, beq_iff_eq]
  · exact reservedBits_withEqualBit s.fl _ (Nat.ne_of_gt hk)

/-- Settles O56, by the results of the two instructions. -/
theorem divModReconstructsDividend : Obligations.DivModReconstructsDividend := by
  intro s a b hb
  obtain ⟨q, hdiv, hquotient, -⟩ := divDivides.2 s a b hb
  obtain ⟨m, hmod, hremainder, -⟩ := modTakesRemainder.2 s a b hb
  refine ⟨q, m, hdiv, hmod, ?_, ?_⟩
  · rw [hquotient, hremainder, Nat.div_add_mod']
  · rw [hremainder]
    exact Nat.mod_lt _ (Nat.pos_of_ne_zero (byte_toNat_ne_zero hb))

/-! ## Jumps -/

/-- Settles O44: JMP transfers control and writes no register. -/
theorem jmpJumps : Obligations.JmpJumps := by
  refine ⟨fun _ => rfl, fun s r => ?_⟩
  have h : Completed (.jmp r.byte) s (s.jumpTo (s.reg r)) := ⟨r, rfl, rfl⟩
  exact ⟨_, exec_of_completed h, s.jumpTo_pc_toNat (s.reg r), h.writesOnlyRegs (by simp [Instr.op])⟩

/-- Settles O45, by the two values of the equal flag. -/
theorem jeqJumpsIfEqual : Obligations.JeqJumpsIfEqual := by
  refine ⟨fun _ => rfl, fun s r => ?_⟩
  have h : Completed (.jeq r.byte) s (if s.equalFlag then s.jumpTo (s.reg r) else s.advance 2) := ⟨r, rfl, rfl⟩
  refine ⟨_, exec_of_completed h, h.writesOnlyRegs (by simp [Instr.op]), fun hE => ?_, fun hE => ?_⟩
  · rw [State.equalFlag, hE]
    exact s.jumpTo_pc_toNat (s.reg r)
  · rw [State.equalFlag, hE]
    rfl

/-- Settles O46, by the two values of the equal flag. -/
theorem jneJumpsIfNotEqual : Obligations.JneJumpsIfNotEqual := by
  refine ⟨fun _ => rfl, fun s r => ?_⟩
  have h : Completed (.jne r.byte) s (if !s.equalFlag then s.jumpTo (s.reg r) else s.advance 2) := ⟨r, rfl, rfl⟩
  refine ⟨_, exec_of_completed h, h.writesOnlyRegs (by simp [Instr.op]), fun hE => ?_, fun hE => ?_⟩
  · rw [State.equalFlag, hE]
    exact s.jumpTo_pc_toNat (s.reg r)
  · rw [State.equalFlag, hE]
    rfl

/-- Settles O59, by the equal flag that CMP leaves and the two branches on it. -/
theorem cmpThenBranch : Obligations.CmpThenBranch := by
  intro s a b r
  obtain ⟨t, hcmp, hE, -, -, hregs, -⟩ := cmpSetsEqualFlag.2 s a b
  obtain ⟨e, hjeq, -, hjeqTaken, hjeqNot⟩ := jeqJumpsIfEqual.2 t r
  obtain ⟨n, hjne, -, hjneTaken, hjneNot⟩ := jneJumpsIfNotEqual.2 t r
  rw [hregs r List.not_mem_nil] at hjeqTaken hjneTaken
  refine ⟨t, e, n, hcmp, hjeq, hjne, fun heq => ?_, fun hne => ?_⟩
  · exact ⟨hjeqTaken (hE.2 heq), hjneNot (hE.2 heq)⟩
  · have hclear : t.fl.getLsbD 0 = false := Bool.eq_false_iff.2 (mt hE.1 hne)
    exact ⟨hjeqNot hclear, hjneTaken hclear⟩

/-! ## Stack and subroutines -/

/-- The decremented SP of a push that is allowed. -/
theorem sp_sub_one_toNat {s : State} (h : s.sp.toNat ≠ 0) : (s.sp - 1#8).toNat = s.sp.toNat - 1 := by
  have := byte_toNat_lt s.sp
  rw [BitVec.toNat_sub]
  simp only [BitVec.toNat_ofNat, Config.wordBits]
  omega

/-- The incremented SP of a pop that is allowed. -/
theorem sp_add_one_toNat {s : State} (h : s.sp.toNat < 244) : (s.sp + 1#8).toNat = s.sp.toNat + 1 := by
  simp only [BitVec.toNat_add, BitVec.toNat_ofNat, Config.wordBits]
  omega

theorem State.sp_advance (s : State) (n : Nat) : (s.advance n).sp = s.sp := rfl

theorem State.sp_setReg_seven (s : State) (v : Byte) : (s.setReg 7 v).sp = v := s.reg_setReg_same 7 v

theorem State.sp_setReg_other (s : State) {r : Reg} (h : r ≠ 7) (v : Byte) : (s.setReg r v).sp = s.sp :=
  s.reg_setReg_other h v

/-- The frame of a completed push: SP and the cell at the decremented SP alone. -/
theorem Completed.push_frame {i : Instr} {s t : State} (h : Completed i s t) (hop : i.op ∈ [Op.psh, .call])
    (hsp : s.sp.toNat ≠ 0) :
    sameMemoryBut s t (s.sp.toNat - 1) ∧ sameRegsBut s t [7] ∧ t.fl = s.fl ∧ sameRun s t ∧ t.out = s.out := by
  have hmem := (memoryFrame i s t (exec_of_completed h)).1 hop
  rw [sp_sub_one_toNat hsp] at hmem
  cases i with
  | psh | call =>
    exact ⟨hmem, h.framed.regs, h.framed.flags.resolve_right nofun, h.keepsRun nofun, h.out_eq nofun⟩
  | _ => simp [Instr.op] at hop

/-- Settles O40: the pushed byte is read after SP is decremented. -/
theorem pshPushesRegister : Obligations.PshPushesRegister := by
  refine ⟨fun _ => rfl, fun s r hsp => ?_, fun s r hsp => ?_⟩
  · have h : Completed (.psh r.byte) s _ := ⟨r, rfl, hsp, rfl⟩
    obtain ⟨hmem, hregs, hfl, hrun, hout⟩ := h.push_frame (by simp [Instr.op]) hsp
    refine ⟨_, exec_of_completed h, ?_, ?_, hmem, hregs, rfl, hfl, hrun, hout⟩
    · exact (congrArg BitVec.toNat (s.sp_setSp (s.sp - 1#8))).trans (sp_sub_one_toNat hsp)
    · rw [State.advance_mem, sp_sub_one_toNat hsp, Memory.read_write_same, State.setSp_eq, State.reg_setReg]
      simp only [eq_comm]
  · exact exec_of_ownFault (i := .psh r.byte) (by simp [Instr.wf, Instr.registerOperands]) ⟨hsp, rfl⟩

/-- Settles O41: SP is incremented after the destination is written. -/
theorem popPopsRegister : Obligations.PopPopsRegister := by
  refine ⟨fun _ => rfl, fun s r hsp => ?_, fun s r hsp => ?_⟩
  · have h : Completed (.pop r.byte) s _ := ⟨r, rfl, hsp, rfl⟩
    obtain ⟨hregs, hrest⟩ := h.writesOnlyRegs (by simp [Instr.op])
    refine ⟨_, exec_of_completed h, fun hr => ⟨?_, ?_⟩, fun hr => ?_, rfl, fun q hq => hregs q ?_, hrest⟩
    · rw [State.advance_reg, State.setSp_eq, State.reg_setReg_other _ hr.symm, State.reg_setReg_same]
    · rw [State.sp_advance, State.sp_setSp, State.sp_setReg_other s hr, sp_add_one_toNat hsp]
    · rw [State.sp_advance, State.sp_setSp, hr, State.sp_setReg_seven, BitVec.toNat_add]
      rfl
    · simpa [writtenRegs, or_comm] using hq
  · exact exec_of_ownFault (i := .pop r.byte) (by simp [Instr.wf, Instr.registerOperands]) ⟨hsp, rfl⟩

/-- The return address of a CALL that may return is one byte. -/
theorem returnAddress_toNat {n : Nat} (h : n ≤ 255) : (BitVec.ofNat Config.wordBits n).toNat = n :=
  (BitVec.toNat_ofNat _ _).trans (Nat.mod_eq_of_lt (Nat.lt_succ_of_le h))

/-- Settles O42: the target is read after SP is decremented. -/
theorem callPushesReturnAddress : Obligations.CallPushesReturnAddress := by
  refine ⟨fun _ => rfl, fun s r hsp hpc => ?_, fun s r hsp => ?_, fun s r hsp hpc => ?_⟩
  · have h : Completed (.call r.byte) s _ := ⟨r, rfl, hsp, Nat.lt_succ_of_le hpc, rfl⟩
    obtain ⟨hmem, hregs, hfl, hrun, hout⟩ := h.push_frame (by simp [Instr.op]) hsp
    refine ⟨_, exec_of_completed h, ?_, ?_, ?_, hmem, hregs, hfl, hrun, hout⟩
    · exact (congrArg BitVec.toNat (s.sp_setSp (s.sp - 1#8))).trans (sp_sub_one_toNat hsp)
    · rw [State.jumpTo_mem, sp_sub_one_toNat hsp, Memory.read_write_same, returnAddress_toNat hpc]
    · rw [State.jumpTo_pc_toNat, State.setSp_eq, State.reg_setReg]
      obtain rfl | hr := eq_or_ne r 7
      · rw [if_pos rfl, if_pos rfl, sp_sub_one_toNat hsp]
      · rw [if_neg hr, if_neg hr.symm]
  · exact exec_of_ownFault (i := .call r.byte) (by simp [Instr.wf, Instr.registerOperands]) (.inl ⟨hsp, rfl⟩)
  · exact exec_of_ownFault (i := .call r.byte) (by simp [Instr.wf, Instr.registerOperands]) (.inr ⟨hsp, hpc, rfl⟩)

/-- Settles O43: the pc takes the byte at SP, and SP is incremented. -/
theorem retPopsPc : Obligations.RetPopsPc := by
  refine ⟨rfl, fun s hsp => ?_, fun s hsp => exec_of_ownFault (i := .ret) rfl ⟨hsp, rfl⟩⟩
  have h : Completed .ret s _ := ⟨hsp, rfl⟩
  refine ⟨_, exec_of_completed h, s.jumpTo_pc_toNat _, ?_, h.writesOnlyRegs (by simp [Instr.op])⟩
  rw [State.sp_setSp, sp_add_one_toNat hsp]

/-- Settles O57: POP reads the cell that PSH wrote, and SP comes back to its value. -/
theorem pshThenPopRestoresRegisters : Obligations.PshThenPopRestoresRegisters := by
  intro s r hlow hhigh
  obtain ⟨t, hpsh, hsp, hcell, -, hkept, -⟩ := pshPushesRegister.2.1 s r (by omega)
  obtain ⟨u, hpop, hother, hseven, -, hkept', -⟩ := popPopsRegister.2.1 t r (by omega)
  rw [← hsp] at hcell
  have huSp : u.sp.toNat = s.sp.toNat := by
    obtain rfl | hr := eq_or_ne r 7
    · rw [hseven rfl, hcell, if_pos rfl, sp_sub_one_toNat (by omega)]
      omega
    · rw [(hother hr).2, hsp]
      omega
  refine ⟨t, u, hpsh, hpop, fun q => ?_⟩
  obtain rfl | hq := eq_or_ne q 7
  · exact BitVec.eq_of_toNat_eq huSp
  obtain rfl | hqr := eq_or_ne q r
  · rw [(hother hq).1, hcell, if_neg hq]
  · rw [hkept' q (by simp [hqr, hq]), hkept q (by simpa using hq)]

/-- Settles O58: RET reads the cell that CALL wrote, with SP as CALL left it. -/
theorem callThenRetReturns : Obligations.CallThenRetReturns := by
  intro s r hlow hhigh hpc
  obtain ⟨t, hcall, hsp, hcell, -⟩ := callPushesReturnAddress.2.1 s r (by omega) hpc
  refine ⟨t, hcall, fun v hvsp hvcell => ?_⟩
  obtain ⟨u, hret, hupc, husp, -⟩ := retPopsPc.2.1 v (by rw [hvsp]; omega)
  refine ⟨u, hret, ?_, BitVec.eq_of_toNat_eq ?_⟩
  · rw [hupc, hvcell, hsp, hcell]
  · rw [husp, hvsp]
    omega

end Sys2Proof.Machine
end

section
/-! Proofs of the family `other`, the interfaces: snapshot, exit status, output text and assembly text
(20_memory.md section 4, 42_output.md, 30_encoding.md section 5). -/
namespace Sys2Proof.Machine

/-! ## Snapshot and exit status -/

theorem inspectByte_cell (s : State) {a : Nat} (h : a ≤ 255) : inspectByte s a = some (s.mem.read a) :=
  if_pos (Nat.lt_succ_of_le h)

theorem inspectByte_past (s : State) {a : Nat} (h : 255 < a) : inspectByte s a = none := if_neg (Nat.not_lt.2 h)

/-- Settles O11, byte by byte. -/
theorem snapshotShowsThreeBytes : Obligations.SnapshotShowsThreeBytes := by
  refine fun s => ⟨rfl, fun _ => rfl, fun k b hb => ?_⟩
  have hinspect : b = inspectByte s (s.pc.toNat + k) := by
    simp only [List.mem_cons, List.not_mem_nil, or_false, Prod.mk.injEq] at hb
    obtain ⟨rfl, rfl⟩ | ⟨rfl, rfl⟩ | ⟨rfl, rfl⟩ := hb <;> rfl
  rw [hinspect]
  exact ⟨inspectByte_cell s, inspectByte_past s⟩

section
variable (codes : ExitCodes) {s : State}

theorem exitStatus_running (h : s.status = .running) : exitStatus codes (.ok s) = none := by simp [exitStatus, h]

theorem exitStatus_halted (h : s.status = .halted) : exitStatus codes (.ok s) = some codes.ok := by
  simp [exitStatus, h]

theorem exitStatus_faulted (h : s.status = .faulted) : exitStatus codes (.ok s) = some codes.runtimeFault := by
  simp [exitStatus, h]

end

/-- Settles O12: each way to end has the code of its own, and the codes are distinct. -/
theorem exitStatusesDistinguishable : Obligations.ExitStatusesDistinguishable := by
  intro codes ⟨hokLoad, hokFault, hloadFault⟩ e r h f hr hh hf
  have herror : exitStatus codes (.error e) = some codes.loadFailure := rfl
  rw [exitStatus_running codes hr, exitStatus_halted codes hh, exitStatus_faulted codes hf, herror]
  simp only [ne_eq, Option.some.injEq, true_and]
  exact ⟨hokFault, hokLoad, hloadFault.symm⟩

/-! ## The output text -/

/-- The digits of a byte are its decimal numeral: one to three digits of that value, none of them a leading zero. -/
theorem decimalDigits_spec (v : Byte) :
    1 ≤ (decimalDigits v).length ∧ (decimalDigits v).length ≤ 3 ∧ (∀ d ∈ decimalDigits v, d ≤ 9) ∧
      (decimalDigits v).foldl (fun n d => 10 * n + d) 0 = v.toNat ∧
      ((decimalDigits v).head? = some 0 → decimalDigits v = [0]) := by
  have hv := byte_toNat_lt v
  unfold decimalDigits
  generalize v.toNat = n at hv
  by_cases hone : n < 10
  · simp [hone, Nat.le_of_lt_succ hone]
  · by_cases htwo : n < 100
    all_goals
      simp only [hone, htwo, if_true, if_false, List.length_cons, List.length_nil, List.forall_mem_cons,
        List.not_mem_nil, false_imp_iff, implies_true, List.foldl_cons, List.foldl_nil, List.head?_cons,
        Option.some.injEq, List.cons.injEq, reduceCtorEq, and_false, and_true, imp_false]
      omega

theorem renderOutput_append (first second : List Byte) :
    renderOutput (first ++ second) = renderOutput first ++ renderOutput second := List.flatMap_append

theorem renderOutput_singleton (v : Byte) : renderOutput [v] = renderByte v := List.flatMap_singleton _ _

/-- Settles O13, by the numeral of a byte. -/
theorem outputRendersDecimalLines : Obligations.OutputRendersDecimalLines :=
  ⟨fun v => ⟨decimalDigits v, rfl, decimalDigits_spec v⟩, renderOutput_singleton, renderOutput_append⟩

/-! ## The assembly text -/

/-- Settles O14, by running the assembler on the texts of the spec. -/
theorem specTextsAssemble : Obligations.SpecTextsAssemble := by
  unfold Obligations.SpecTextsAssemble
  decide

/-- Settles O15, by running the assembler on the three texts. -/
theorem immediateRadixesAgree : Obligations.ImmediateRadixesAgree := by
  unfold Obligations.ImmediateRadixesAgree
  decide

end Sys2Proof.Machine
end
